-- ==== Sys2Proof/Word.lean ====
section
/-! DEFINITION. The 32-bit bus word: the width of every control register, of every operand word and of a command
(20_memory.md rule R40, 30_encoding.md rule R54). -/

namespace Sys2Proof

/-- One 32-bit word of the bus (rule R40) and of the command latch (rule R28). -/
abbrev Word := BitVec 32

end Sys2Proof
end

