-- ==== Sys2Proof/Syntax.lean ====
section
/-! DEFINITION. The ten commands of 30_encoding.md rule R58, one constructor each, and the pseudo-instructions of
rule R63. -/

namespace Sys2Proof

/-- An operand register number: every value 0..15 is legal (30_encoding.md rule R56). -/
abbrev Reg := Fin 16

/-- The commands of the opcode map (30_encoding.md rule R58), each with the fields that row uses. -/
inductive Instr where
  /-- NOP (rule R65). -/
  | nop
  /-- MOV rd, ra (rule R66). -/
  | mov (rd ra : Reg)
  /-- LDI rd, imm (rule R67): imm is the signed value of the 16-bit immediate (rule R57). -/
  | ldi (rd : Reg) (imm : Int)
  /-- MODEXP rd, ra, rb (rule R91): ra the base, rb the signed exponent. -/
  | modexp (rd ra rb : Reg)
  /-- MODMUL rd, ra, rb (rule R92). -/
  | modmul (rd ra rb : Reg)
  /-- MODINV rd, ra (rule R93). -/
  | modinv (rd ra : Reg)
  /-- MEXPACC rd, ra, rb (rule R94): rd the accumulator, ra the base, rb the signed exponent. -/
  | mexpacc (rd ra rb : Reg)
  /-- VALIDATE (rule R73): d is FL[0], the Damgård checks (`validate.d`). -/
  | validate (d : Bool)
  /-- DERIVEH ra (rule R75): ra holds the exponent r. -/
  | deriveh (ra : Reg)
  /-- DLOG rd, ra (rule R82): neg is FL[0], the negative branch (`dlog.neg`). -/
  | dlog (neg : Bool) (rd ra : Reg)
  deriving DecidableEq, Repr

/-- The pseudo-instruction `setone rd` (rule R63). -/
def Instr.setone (rd : Reg) : Instr := .ldi rd 1

/-- The pseudo-instruction `clr rd` (rule R63). -/
def Instr.clr (rd : Reg) : Instr := .ldi rd 0

end Sys2Proof
end

