-- ==== Sys2Proof/WellFormed.lean ====
section
/-! DEFINITION. Which terms of `Instr` an encoding can hold. Register numbers are exact by their type; the immediate of
LDI has a range (30_encoding.md rule R57). -/

namespace Sys2Proof

/-- The range of IMM16 (rule R57). -/
def immInRange (imm : Int) : Bool := decide (-32768 ≤ imm) && decide (imm ≤ 32767)

/-- A command some 32-bit word spells (rules R56 and R57). -/
def Instr.wellFormed : Instr → Bool
  | .nop => true
  | .mov _ _ => true
  | .ldi _ imm => immInRange imm
  | .modexp _ _ _ => true
  | .modmul _ _ _ => true
  | .modinv _ _ => true
  | .mexpacc _ _ _ => true
  | .validate _ => true
  | .deriveh _ => true
  | .dlog _ _ _ => true

end Sys2Proof
end

