-- ==== Sys2Proof/Decode.lean ====
section
/-! DEFINITION. The command words: the two formats, the opcode map and the decoder of 30_encoding.md rules R54 to R60,
and the encoder written from the same table. -/

namespace Sys2Proof

/-- The operand fields a row of the opcode map is handed (rule R59). -/
structure Fields where
  rd : Reg
  ra : Reg
  rb : Reg
  fl0 : Bool
  imm : Int
  deriving DecidableEq, Repr

/-- The four bits of a word from bit `lo` up, as a register number (rule R56). -/
def regField (w : Word) (lo : Nat) : Reg := (w.extractLsb' lo 4).toFin

/-- The fields of rules R56 and R57 at their places in the word. -/
def fieldsOf (w : Word) : Fields where
  rd := regField w 8
  ra := regField w 12
  rb := regField w 16
  fl0 := w.getLsbD 20
  imm := (w.extractLsb' 16 16).toInt

/-- One row of the opcode map: a word w spells the command when w AND mask = pattern (rule R58). -/
structure OpcodeRow where
  mask : Word
  pattern : Word
  build : Fields → Instr

/-- Whether a word spells the command of a row (rule R58). -/
def OpcodeRow.spells (r : OpcodeRow) (w : Word) : Bool := w &&& r.mask == r.pattern

/-- The opcode map, in the order of rule R58. -/
def opcodeRows : List OpcodeRow :=
  [ ⟨0xFFFFFFFF, 0x00000000, fun _ => .nop⟩,
    ⟨0xFFFF00FF, 0x00000001, fun f => .mov f.rd f.ra⟩,
    ⟨0x0000F0FF, 0x00000002, fun f => .ldi f.rd f.imm⟩,
    ⟨0xFFF000FF, 0x00000010, fun f => .modexp f.rd f.ra f.rb⟩,
    ⟨0xFFF000FF, 0x00000011, fun f => .modmul f.rd f.ra f.rb⟩,
    ⟨0xFFFF00FF, 0x00000012, fun f => .modinv f.rd f.ra⟩,
    ⟨0xFFF000FF, 0x00000013, fun f => .mexpacc f.rd f.ra f.rb⟩,
    ⟨0xFFEFFFFF, 0x00000020, fun f => .validate f.fl0⟩,
    ⟨0xFFFF0FFF, 0x00000021, fun f => .deriveh f.ra⟩,
    ⟨0xFFEF00FF, 0x00000030, fun f => .dlog f.fl0 f.rd f.ra⟩ ]

/-- The decoder of rule R59, total on every word: `none` is ILLEGAL (rule R60). -/
def decode (w : Word) : Option Instr :=
  (opcodeRows.find? (·.spells w)).map fun r => r.build (fieldsOf w)

/-- What the decoder reads from an instruction whose bits are `w`. A command is one 32-bit word (rule R54); bits from
`nbits` up are 0. -/
def decodeTableWord (nbits w : Nat) : Option Instr := decode (BitVec.ofNat 32 (w % 2 ^ nbits))

/-- Format R (rule R55): {RSV, FL, RB, RA, RD, OPC} with RSV = 0. -/
def formatR (opc : BitVec 8) (rd ra rb : Reg) (fl : BitVec 4) : Word :=
  0#8 ++ fl ++ BitVec.ofFin (w := 4) rb ++ BitVec.ofFin (w := 4) ra ++ BitVec.ofFin (w := 4) rd ++ opc

/-- Format I (rule R55): {IMM16, RSV, RD, OPC} with RSV = 0. -/
def formatI (opc : BitVec 8) (rd : Reg) (imm : Int) : Word :=
  BitVec.ofInt 16 imm ++ 0#4 ++ BitVec.ofFin (w := 4) rd ++ opc

/-- The FL field whose bit 0 is `b` (rule R56). -/
def flag0 (b : Bool) : BitVec 4 := if b then 1#4 else 0#4

/-- The word of a command (rules R55 and R58); a field the command does not use is 0. -/
def encode : Instr → Word
  | .nop => formatR 0x00 0 0 0 0
  | .mov rd ra => formatR 0x01 rd ra 0 0
  | .ldi rd imm => formatI 0x02 rd imm
  | .modexp rd ra rb => formatR 0x10 rd ra rb 0
  | .modmul rd ra rb => formatR 0x11 rd ra rb 0
  | .modinv rd ra => formatR 0x12 rd ra 0 0
  | .mexpacc rd ra rb => formatR 0x13 rd ra rb 0
  | .validate d => formatR 0x20 0 0 0 (flag0 d)
  | .deriveh ra => formatR 0x21 0 ra 0 0
  | .dlog neg rd ra => formatR 0x30 rd ra 0 (flag0 neg)

end Sys2Proof
end

