-- ==== Sys2Proof/Config.lean ====
section
/-! DEFINITION. What an implementation of the block fixes (00_scope.md rules R6 to R9) and the read values the spec leaves
open (93_implementation_defined.md U1), as a constant without a body. -/

namespace Sys2Proof

/-- The parameters of one implementation. They are arguments of the model (10_state.md rule R18): the state
carries them, no step changes them, and every statement holds for every value of them. -/
structure Config where
  /-- `NW`, the 32-bit words of one operand register (rule R6). -/
  nw : Nat
  /-- `TABLE_ENTRIES`, the capacity of the BSGS table (rule R7). -/
  tableEntries : Nat
  /-- `BASE`, the platform address of the register window (rule R9). -/
  base : Nat
  /-- The configuration function `PrimeTest` (rule R8), by what that rule leaves open: the composite numbers it accepts.
  The registers hold finitely many numbers, so every PrimeTest the rule allows is some list (log entry 4). -/
  composites : List Int
  deriving DecidableEq, Repr

/-- `RW = 32*NW`, the width of an operand register in bits (rule R6). -/
def Config.rw (c : Config) : Nat := 32 * c.nw

/-- The ranges rules R6 and R7 give the parameters. -/
abbrev Config.Ok (c : Config) : Prop :=
  3 ≤ c.nw ∧ c.nw ≤ 256 ∧ 2 ≤ c.tableEntries ∧ c.tableEntries ≤ 2 ^ 32 - 1

/-- The reference configuration of rules R6 to R8: PrimeTest is exact primality. `base := 0` is the model's (DESIGN
CHOICE, log entry 3): the spec gives BASE no reference value. -/
def Config.reference : Config where
  nw := 129
  tableEntries := 2 ^ 20
  base := 0
  composites := []

/-- The draws of rule R45: the n-th open read value. A free value (log entry 5): nothing constrains it. -/
opaque Config.draw : Nat → Word

end Sys2Proof
end

