-- ==== Sys2Proof/Machine/State.lean ====
section
/-! DEFINITION. The state of the gofe DL engine (10_state.md), the accesses and events that act on it (rule R17), the
reasons a step can stop, and the state after reset (rule R35). -/

namespace Sys2Proof.Machine

/-- `CTRL` (rule R26): its one field; bits [31:1] are reserved and hold nothing. -/
structure Ctrl where
  /-- IE, the interrupt enable. -/
  ie : Bool
  deriving DecidableEq, Repr

/-- The error codes of rule R101. Codes 6..15 are never produced, so they have no constructor. -/
inductive ErrorCode where
  /-- E_ILLEGAL, code 1. -/
  | illegal
  /-- E_PARAM, code 2. -/
  | param
  /-- E_NOINV, code 3. -/
  | noInv
  /-- E_NOTFOUND, code 4. -/
  | notFound
  /-- E_TABLE, code 5. -/
  | table
  deriving DecidableEq, Repr

/-- `STATUS` (rule R27), one field each; bits [31:12] are reserved and hold nothing. -/
structure Status where
  busy : Bool
  done : Bool
  err : Bool
  found : Bool
  neghit : Bool
  exceeds : Bool
  ovr : Bool
  irqp : Bool
  /-- ECODE; `none` is code 0, no error (rule R101). -/
  ecode : Option ErrorCode
  deriving DecidableEq, Repr

/-- `VSTATUS` (rule R29), one field per check; bits [31:18] are reserved and hold nothing. -/
structure VStatus where
  valid : Bool
  safe : Bool
  pprime : Bool
  qprime : Bool
  grng : Bool
  gne1 : Bool
  gord : Bool
  lpos : Bool
  bpos : Bool
  precond : Bool
  dmode : Bool
  hrng : Bool
  hne1 : Bool
  hord : Bool
  hf1 : Bool
  hf2 : Bool
  rrng : Bool
  hok : Bool
  deriving DecidableEq, Repr

/-- What a host access does: a read, or a write of a value (rule R17). -/
inductive AccessKind where
  | read
  | write (v : Word)
  deriving DecidableEq, Repr

/-- One host bus access: the bus master that performs it, its platform address, its width in bytes and its kind
(rules R17, R36 and R40). -/
structure Access where
  host : Nat
  addr : Nat
  bytes : Nat
  kind : AccessKind
  deriving DecidableEq, Repr

/-- The events of the total order of rule R47: a host access, the engine's completion step (rule R17), and reset
(rule R114). -/
inductive Event where
  | access (a : Access)
  | complete
  | reset
  deriving DecidableEq, Repr

/-- The value a host read returned, part of the observation of a run (rule R125). -/
structure Reply where
  host : Nat
  addr : Nat
  value : Word
  deriving DecidableEq, Repr

/-- The state of the block and, in the last three fields, what the model adds to run it (log entries 2, 5 and 10). -/
structure State where
  /-- The parameters of the implementation, read through CFG0 and CFG1 (rule R25). -/
  cfg : Config
  /-- R0..R15 as signed integers (rules R15 and R19). -/
  regs : Vector Int 16
  ctrl : Ctrl
  status : Status
  /-- The command latch (rule R28). -/
  cmd : Word
  vstatus : VStatus
  /-- The events still to happen, next first: the host program and its interleaving with the engine (rules R47, R125). -/
  schedule : List Event
  /-- How many draws have been made (rule R45). -/
  draws : Nat
  /-- What host reads returned, latest first (rule R125). -/
  replies : List Reply
  deriving DecidableEq, Repr

/-- Why the machine stops. Only a host access stops it: no command does (rule R104). -/
inductive Fault where
  /-- Raised by a host access of another width than 32 bits, or at an offset that is no multiple of 4: a bus error to
  the host, with no change to the block (20_memory.md rule R40, which asks for a host fault in the model). Safe: the
  block's state after it is the state before it. -/
  | busError (a : Access)
  /-- Raised by a host access to an address outside the block's window: it is not an access to this block
  (20_memory.md rules R36 and R37; log entry 7). Safe: the model stops where the platform goes on. -/
  | outsideWindow (a : Access)
  deriving DecidableEq, Repr

/-- Why the model gives an instruction no meaning. -/
inductive Refusal where
  /-- Raised by an arm of exec whose instruction has no meaning in the model; no arm does now. Safe: the model stops. -/
  | notModelled (mnemonic : String)
  deriving DecidableEq, Repr

/-- The outcome of a step of this machine. -/
abbrev Result := Host.Outcome State Fault Refusal

/-- STATUS with every field 0 (rule R35). -/
def Status.reset : Status where
  busy := false
  done := false
  err := false
  found := false
  neghit := false
  exceeds := false
  ovr := false
  irqp := false
  ecode := none

/-- VSTATUS with every bit 0 (rule R35). -/
def VStatus.reset : VStatus where
  valid := false
  safe := false
  pprime := false
  qprime := false
  grng := false
  gne1 := false
  gord := false
  lpos := false
  bpos := false
  precond := false
  dmode := false
  hrng := false
  hne1 := false
  hord := false
  hf1 := false
  hf2 := false
  rrng := false
  hok := false

/-- The reset state of an implementation (rule R35), with nothing scheduled. The last three values are the model's
(DESIGN CHOICE, log entries 2, 5 and 10). -/
def State.resetOf (c : Config) : State where
  cfg := c
  regs := Vector.replicate 16 0
  ctrl := ⟨false⟩
  status := Status.reset
  cmd := 0
  vstatus := VStatus.reset
  schedule := []
  draws := 0
  replies := []

/-- The machine right after reset, in the reference configuration (rules R6, R7 and R35). -/
def State.reset : State := State.resetOf Config.reference

end Sys2Proof.Machine
end

