-- ==== Sys2Proof/Machine/Flags.lean ====
section
/-! DEFINITION. The words software sees of CTRL, STATUS and VSTATUS, the writes to them (10_state.md rules R26, R27 and
R29), and the STATUS updates of issue and of the two completions (20_memory.md rule R44, 60_exceptions.md rules R99
and R100). -/

namespace Sys2Proof.Machine

/-- The word with bit n equal to b and every other bit 0. -/
def bitAt (n : Nat) (b : Bool) : Word := if b then BitVec.twoPow 32 n else 0

/-- The code of an error (rule R101). -/
def ErrorCode.code : ErrorCode → BitVec 4
  | .illegal => 1
  | .param => 2
  | .noInv => 3
  | .notFound => 4
  | .table => 5

/-- The ECODE field: 0 is no error (rule R101). -/
def ecodeBits : Option ErrorCode → BitVec 4
  | none => 0
  | some e => e.code

/-- The word a read of CTRL returns (rule R26). -/
def Ctrl.toWord (c : Ctrl) : Word := bitAt 0 c.ie

/-- The word a read of STATUS returns (rule R27). -/
def Status.toWord (t : Status) : Word :=
  bitAt 0 t.busy ||| bitAt 1 t.done ||| bitAt 2 t.err ||| bitAt 3 t.found ||| bitAt 4 t.neghit |||
  bitAt 5 t.exceeds ||| bitAt 6 t.ovr ||| bitAt 7 t.irqp ||| ((ecodeBits t.ecode).setWidth 32 <<< 8)

/-- The word a read of VSTATUS returns (rule R29). -/
def VStatus.toWord (v : VStatus) : Word :=
  bitAt 0 v.valid ||| bitAt 1 v.safe ||| bitAt 2 v.pprime ||| bitAt 3 v.qprime ||| bitAt 4 v.grng |||
  bitAt 5 v.gne1 ||| bitAt 6 v.gord ||| bitAt 7 v.lpos ||| bitAt 8 v.bpos ||| bitAt 9 v.precond |||
  bitAt 10 v.dmode ||| bitAt 11 v.hrng ||| bitAt 12 v.hne1 ||| bitAt 13 v.hord ||| bitAt 14 v.hf1 |||
  bitAt 15 v.hf2 ||| bitAt 16 v.rrng ||| bitAt 17 v.hok

/-- CTRL after a host write: bit 0 is stored, the reserved bits ignore it (rule R26). -/
def Ctrl.written (v : Word) : Ctrl := ⟨v.getLsbD 0⟩

/-- STATUS after a host write: a 1 in bit 6 clears OVR, a 1 in bit 7 clears IRQP (rule R27). -/
def Status.written (t : Status) (v : Word) : Status :=
  { t with ovr := t.ovr && !v.getLsbD 6, irqp := t.irqp && !v.getLsbD 7 }

/-- STATUS after issue (rule R44). -/
def Status.issued (t : Status) : Status :=
  { t with busy := true, done := false, err := false, ecode := none, found := false, neghit := false,
           exceeds := false }

/-- STATUS after a successful completion (rule R99). -/
def Status.finished (t : Status) : Status :=
  { t with busy := false, done := true, err := false, ecode := none, irqp := true }

/-- STATUS after an error completion (rule R100). -/
def Status.failed (t : Status) (e : ErrorCode) : Status :=
  { t with busy := false, done := true, err := true, ecode := some e, irqp := true }

/-- STATUS with OVR set, after a write that BUSY = 1 made ignored (rule R45). -/
def Status.overrun (t : Status) : Status := { t with ovr := true }

/-- The flags of a DLOG hit (rule R83). -/
def Status.withHit (t : Status) (negative exceeds : Bool) : Status :=
  { t with found := true, neghit := negative, exceeds := exceeds }

/-- VSTATUS with the validation forgotten (rule R30). -/
def VStatus.stale (v : VStatus) : VStatus := { v with valid := false }

end Sys2Proof.Machine
end

