-- ==== Sys2Proof/Machine/Ops.lean ====
section
/-! DEFINITION. The named operations on the state: reading and writing an operand register (00_scope.md rule R15), the
destination write of a command (10_state.md rule R30), the two completions (60_exceptions.md rules R99 and R100), issue
(20_memory.md rule R44), the interrupt output (rule R33) and reset (rule R114). The block takes no trap (rule R98): its
one exception is the error completion `raiseError`, and it has no return (rule R106). -/

namespace Sys2Proof.Machine

/-- `twos_RW(x)`, the register pattern of an integer (rule R10). -/
def twos (c : Config) (x : Int) : BitVec c.rw := BitVec.ofInt c.rw x

/-- `sext_RW(v)`, the integer a register pattern holds (rule R10). -/
def sext (c : Config) (v : BitVec c.rw) : Int := v.toInt

/-- `x[i]` (rule R15). -/
def State.reg (s : State) (i : Reg) : Int := s.regs[i]

/-- `x[i] <- v`: the register holds the integer of the pattern twos_RW(v) (rule R15; log entry 1). -/
def State.setReg (s : State) (i : Reg) (v : Int) : State :=
  { s with regs := s.regs.set i (sext s.cfg (twos s.cfg v)) }

/-- Replace STATUS. -/
def State.setStatus (s : State) (t : Status) : State := { s with status := t }

/-- Replace VSTATUS. -/
def State.setVStatus (s : State) (v : VStatus) : State := { s with vstatus := v }

/-- Replace CTRL. -/
def State.setCtrl (s : State) (c : Ctrl) : State := { s with ctrl := c }

/-- Replace the command latch. -/
def State.setCmd (s : State) (w : Word) : State := { s with cmd := w }

/-- Replace the schedule. -/
def State.setSchedule (s : State) (es : List Event) : State := { s with schedule := es }

/-- Record what a host read returned. -/
def State.pushReply (s : State) (r : Reply) : State := { s with replies := r :: s.replies }

/-- One more draw has been made. -/
def State.countDraw (s : State) : State := { s with draws := s.draws + 1 }

/-- VALID is cleared when register i is one of R0..R5 (rules R30 and R38). -/
def State.touchParam (s : State) (i : Reg) : State :=
  if i ≤ 5 then s.setVStatus s.vstatus.stale else s

/-- The destination write of a command: the register, and VALID when rd <= 5 (rule R30 (b)). -/
def State.writeDest (s : State) (rd : Reg) (v : Int) : State := (s.setReg rd v).touchParam rd

/-- `finish` (rule R99). -/
def finish (s : State) : Result := .next (s.setStatus s.status.finished)

/-- `raise E_X` (rule R100): the error completion, the one exception of the block. -/
def raiseError (s : State) (e : ErrorCode) : Result := .next (s.setStatus (s.status.failed e))

/-- The end of a command: success with the writes made, or an error with none of them (rule R98). -/
def conclude (s : State) : Except ErrorCode State → Result
  | .ok t => finish t
  | .error e => raiseError s e

/-- Issue of a command word (rule R44). -/
def State.issue (s : State) (w : Word) : State := (s.setCmd w).setStatus s.status.issued

/-- The output `irq` (rule R33). -/
def State.irq (s : State) : Bool := s.ctrl.ie && s.status.irqp

/-- Reset (rule R114): every piece of the block's state gets its reset value; the events still to come and the replies
already given are the platform's and stay (log entry 16). -/
def State.resetBlock (s : State) : State :=
  { State.resetOf s.cfg with schedule := s.schedule, draws := s.draws, replies := s.replies }

end Sys2Proof.Machine
end

