-- ==== Sys2Proof/Machine/Operands.lean ====
section
/-! DEFINITION. The operand registers by role (10_state.md rule R20) and word by word (20_memory.md rule R38). -/

namespace Sys2Proof.Machine

/-- P, the modulus: R0. -/
def regP : Reg := 0
/-- Q, the subgroup order: R1. -/
def regQ : Reg := 1
/-- G, the generator: R2. -/
def regG : Reg := 2
/-- H, the Damgård second generator: R3. -/
def regH : Reg := 3
/-- L, the vector length: R4. -/
def regL : Reg := 4
/-- B, the coordinate bound: R5. -/
def regB : Reg := 5

/-- `twos_RW(x)[32*w+31 : 32*w]`, word w of an operand register (rule R38). -/
def operandWord (c : Config) (x : Int) (w : Nat) : Word := (twos c x).extractLsb' (32 * w) 32

/-- A register pattern with word w replaced: `pat[32*w+31 : 32*w] <- v` (rule R38). -/
def replaceWord (c : Config) (pat : BitVec c.rw) (w : Nat) (v : Word) : BitVec c.rw :=
  (pat &&& ~~~((0xFFFFFFFF#32).setWidth c.rw <<< (32 * w))) ||| (v.setWidth c.rw <<< (32 * w))

/-- The register value after a write of word w (rule R38). -/
def withOperandWord (c : Config) (x : Int) (w : Nat) (v : Word) : Int :=
  sext c (replaceWord c (twos c x) w v)

/-- An accepted host write to word w of Rk (rule R38): the word is replaced and VALID is cleared when k <= 5. -/
def State.writeOperandWord (s : State) (k : Reg) (w : Nat) (v : Word) : State :=
  s.writeDest k (withOperandWord s.cfg (s.reg k) w v)

end Sys2Proof.Machine
end

