-- ==== Sys2Proof/Machine/Bus.lean ====
section
/-! DEFINITION. The bus window (20_memory.md): the map (rule R37), host reads and writes (rules R38 to R45) and the host
pseudo-operations (30_encoding.md rule R64). -/

namespace Sys2Proof.Machine

/-- The value of `ID` (rule R24). -/
def idWord : Word := 0x474F4645

/-- The size of the window in bytes (rule R36). -/
def windowBytes : Nat := 0x8000

/-- What stands at an aligned offset of the window (rule R37). -/
inductive Place where
  | id
  | cfg0
  | cfg1
  | ctrl
  | status
  | cmd
  | vstatus
  | operand (k : Reg) (w : Nat)
  | reserved
  deriving DecidableEq, Repr

/-- The offset of word w of Rk, `opword(k, w)` (rule R45). -/
def opword (k : Reg) (w : Nat) : Nat := 0x1000 + 0x400 * k.val + 4 * w

/-- The map of the window (rule R37); an operand word w >= NW is unmapped. -/
def placeAt (nw off : Nat) : Place :=
  if off = 0x0000 then .id
  else if off = 0x0004 then .cfg0
  else if off = 0x0008 then .cfg1
  else if off = 0x000C then .ctrl
  else if off = 0x0010 then .status
  else if off = 0x0014 then .cmd
  else if off = 0x0018 then .vstatus
  else if 0x1000 ≤ off ∧ off < 0x5000 then
    let w := (off - 0x1000) % 0x400 / 4
    if w < nw then .operand (Fin.ofNat 16 ((off - 0x1000) / 0x400)) w else .reserved
  else .reserved

/-- `MemRead(off, 4)` where its value is defined: BUSY = 0, or a place that stays readable (rules R24 to R29, R37, R38,
R41). -/
def State.windowWord (s : State) (off : Nat) : Word :=
  match placeAt s.cfg.nw off with
  | .id => idWord
  | .cfg0 => (BitVec.ofNat 16 s.cfg.nw).setWidth 32
  | .cfg1 => BitVec.ofNat 32 s.cfg.tableEntries
  | .ctrl => s.ctrl.toWord
  | .status => s.status.toWord
  | .cmd => s.cmd
  | .vstatus => s.vstatus.toWord
  | .operand k w => operandWord s.cfg (s.reg k) w
  | .reserved => 0

/-- Whether a read of a place is a draw while BUSY = 1 (rule R45). -/
def Place.drawsWhileBusy : Place → Bool
  | .operand _ _ => true
  | .vstatus => true
  | .id => false
  | .cfg0 => false
  | .cfg1 => false
  | .ctrl => false
  | .status => false
  | .cmd => false
  | .reserved => false

/-- `MemRead(off, 4)` (rules R38, R43, R45): its value, recorded for the host that reads. The block does not change. -/
def State.hostRead (s : State) (host addr off : Nat) : State :=
  if s.status.busy && (placeAt s.cfg.nw off).drawsWhileBusy then
    s.countDraw.pushReply ⟨host, addr, Config.draw s.draws⟩
  else s.pushReply ⟨host, addr, s.windowWord off⟩

/-- A write that BUSY = 1 makes ignored: it sets OVR (rule R45). -/
def State.ignoredWrite (s : State) : State := s.setStatus s.status.overrun

/-- `MemWrite(off, 4, v)` (rules R26 to R29, R37, R38, R41, R43 to R45). -/
def State.hostWrite (s : State) (off : Nat) (v : Word) : State :=
  match placeAt s.cfg.nw off with
  | .id => s
  | .cfg0 => s
  | .cfg1 => s
  | .ctrl => s.setCtrl (Ctrl.written v)
  | .status => s.setStatus (s.status.written v)
  | .cmd => if s.status.busy then s.ignoredWrite else s.issue v
  | .vstatus => s
  | .operand k w => if s.status.busy then s.ignoredWrite else s.writeOperandWord k w v
  | .reserved => s

/-- One host access (rules R36 and R40): outside the window it is none of the block's; of another width than 32 bits or
misaligned it is a bus error. -/
def access (s : State) (a : Access) : Result :=
  if a.addr < s.cfg.base ∨ s.cfg.base + windowBytes ≤ a.addr then .fault (.outsideWindow a)
  else if a.bytes ≠ 4 ∨ (a.addr - s.cfg.base) % 4 ≠ 0 then .fault (.busError a)
  else match a.kind with
    | .read => .next (s.hostRead a.host a.addr (a.addr - s.cfg.base))
    | .write v => .next (s.hostWrite (a.addr - s.cfg.base) v)

/-- A 32-bit read of an offset by a host, as an event. -/
def readEvent (c : Config) (host off : Nat) : Event := .access ⟨host, c.base + off, 4, .read⟩

/-- A 32-bit write of an offset by a host, as an event. -/
def writeEvent (c : Config) (host off : Nat) (v : Word) : Event := .access ⟨host, c.base + off, 4, .write v⟩

/-- `setreg Rk, v` (rule R64): one write for each operand word, word 0 first. -/
def setregEvents (c : Config) (host : Nat) (k : Reg) (v : Int) : List Event :=
  (List.range c.nw).map fun w => writeEvent c host (opword k w) (operandWord c v w)

/-- `getreg Rk` (rule R64): one read for each operand word. The rule gives the words read and no order of the reads; word
0 first is the model's (DESIGN CHOICE, log entry 20). -/
def getregEvents (c : Config) (host : Nat) (k : Reg) : List Event :=
  (List.range c.nw).map fun w => readEvent c host (opword k w)

/-- The integer `getreg` forms from the words read (rule R64): word 0, the head of the list, is the least significant. -/
def wordsToInt (c : Config) (ws : List Word) : Int :=
  sext c (ws.foldr (fun w acc => acc <<< 32 ||| w.setWidth c.rw) 0#c.rw)

/-- The issuing write of `issue` (rule R64). -/
def issueEvent (c : Config) (host : Nat) (w : Word) : Event := writeEvent c host 0x0014 w

/-- One STATUS read of the polling loop of `issue` (rule R64; `pollLoop` of HostProgram.lean repeats it). -/
def pollEvent (c : Config) (host : Nat) : Event := readEvent c host 0x0010

end Sys2Proof.Machine
end

