-- ==== Sys2Proof/Machine/Arith.lean ====
section
/-! DEFINITION. The integer arithmetic of 00_scope.md rules R8 and R11 to R14 and the signed power of 43_modexp.md rule
R89, on unbounded integers. Floor modulo (rule R11) by n >= 1 is Lean's `%` on Int, whose remainder is never negative. -/

namespace Sys2Proof.Machine

/-- One bit after another from the top: the largest s built from `k` more bits with s*s <= n. -/
def sqrtBits (n : Nat) : Nat → Nat → Nat
  | 0, s => s
  | k + 1, s => sqrtBits n k (if (s + 2 ^ k) * (s + 2 ^ k) ≤ n then s + 2 ^ k else s)

/-- The floor square root of n. -/
def floorSqrt (n : Nat) : Nat := sqrtBits n (n.log2 / 2 + 1) 0

/-- `csqrt(n)`, the least s >= 0 with s*s >= n (rule R12), for n >= 0. -/
def csqrt (n : Int) : Int :=
  let s := floorSqrt n.toNat
  if s * s = n.toNat then s else s + 1

/-- `d | a` for d != 0 (rule R11): a mod |d| = 0. -/
def divides (d a : Int) : Bool := a % d == 0

/-- `HasInv(a, p)`: gcd(a mod p, p) = 1 (rule R13). -/
def hasInv (a p : Int) : Bool := Int.gcd (a % p) p == 1

/-- The extended Euclid loop: the coefficient of its first argument in the gcd, at most `fuel` divisions. -/
def bezout : Nat → Nat → Nat → Int → Int → Int
  | 0, _, _, s, _ => s
  | fuel + 1, r, r', s, s' =>
    if r' = 0 then s else bezout fuel r' (r % r') s' (s - (r / r' : Nat) * s')

/-- `Inv(a, p)`, the x with 1 <= x < p and (a*x) mod p = 1 (rule R13). It is used only where HasInv(a, p) = 1. -/
def inv (a p : Int) : Int := bezout (p.toNat + 1) (a % p).toNat p.toNat 1 0 % p

/-- Square and multiply, least bit first, over the `fuel` low bits of e. -/
def powBits (p : Nat) : Nat → Nat → Nat → Nat → Nat
  | 0, _, _, acc => acc
  | fuel + 1, b, e, acc =>
    powBits p fuel (b * b % p) (e / 2) (if e % 2 = 1 then acc * b % p else acc)

/-- `PowMod(b, e, p)` = (b mod p)^e mod p for p >= 2 and e >= 0 (rule R14), by square and multiply;
`powMod_eq` of Laws/Arith.lean gives the closed form. -/
def powMod (b e p : Int) : Int :=
  (powBits p.toNat (e.toNat.log2 + 1) (b % p).toNat e.toNat 1 : Nat)

/-- `SModExp(b, e, p)` (rule R89); `none` is its `raise E_NOINV`. -/
def sModExp (b e p : Int) : Option Int :=
  if 0 ≤ e then some (powMod b e p)
  else
    let v := powMod b (-e) p
    if hasInv v p then some (inv v p) else none

/-- Trial division by d, d+1, ... while d*d <= n. -/
def noDivisorFrom (n : Nat) : Nat → Nat → Bool
  | 0, _ => true
  | fuel + 1, d => if n < d * d then true else if n % d = 0 then false else noDivisorFrom n fuel (d + 1)

/-- Exact primality of n >= 2. -/
def isPrime (n : Nat) : Bool := noDivisorFrom n n 2

/-- `PrimeTest(n)` of a configuration (rule R8): 0 below 2, 1 on a prime; 1 on a composite number the configuration
accepts. -/
def primeTest (c : Config) (n : Int) : Bool :=
  if n < 2 then false else isPrime n.toNat || c.composites.contains n

end Sys2Proof.Machine
end

