-- ==== Sys2Proof/Machine/Dlog.lean ====
section
/-! DEFINITION. The discrete-log solver of 42_dlog.md: the search size (rule R79), the baby steps (rule R80), the giant
steps (rule R81) and DLOG (rule R82). -/

namespace Sys2Proof.Machine

/-- The BSGS table: a key G^j mod P and its j. It lives inside one DLOG (10_state.md rule R31). -/
abbrev BabyTable := List (Int × Nat)

/-- `bound` = L*B*B (rule R79). -/
def dlogBound (l b : Int) : Int := l * b * b

/-- `m` = csqrt(bound) + 1 (rule R79). -/
def dlogM (l b : Int) : Int := csqrt (dlogBound l b) + 1

/-- The loop of rule R80 from j on, `n` more entries; on equal keys the smallest j is kept. -/
def babySteps (p g : Int) : Nat → Nat → Int → BabyTable → BabyTable
  | 0, _, _, t => t
  | n + 1, j, v, t =>
    babySteps p g n (j + 1) (v * g % p) (match t.lookup v with | none => (v, j) :: t | some _ => t)

/-- The table T of m entries (rule R80). -/
def babyTable (p g : Int) (m : Nat) : BabyTable := babySteps p (g % p) m 0 1 []

/-- The loop of `Search` (rule R81) from probe i on, `n` more probes. -/
def giantSteps (p f : Int) (m : Nat) (t : BabyTable) : Nat → Nat → Int → Option Int
  | 0, _, _ => none
  | n + 1, i, y =>
    match t.lookup y with
    | some j => some (i * m + j : Nat)
    | none => giantSteps p f m t n (i + 1) (y * f % p)

/-- `Search(y)`: m + 1 probes (rule R81). -/
def search (p f : Int) (m : Nat) (t : BabyTable) (y : Int) : Option Int := giantSteps p f m t (m + 1) 0 y

/-- What a DLOG hit reports (rules R82 and R83). -/
structure DlogHit where
  value : Int
  negative : Bool
  exceeds : Bool
  deriving DecidableEq, Repr

/-- The negative branch (step 5 of rule R77, rule R82). -/
def dlogNegative (p f bound t : Int) (m : Nat) (table : BabyTable) : Except ErrorCode DlogHit :=
  if hasInv t p then
    match search p f m table (inv t p) with
    | some e => .ok ⟨-e, true, decide (bound < e)⟩
    | none => .error .notFound
  else .error .noInv

/-- The branches of DLOG once the stride F exists (rule R82). -/
def dlogBranches (p f bound t : Int) (m : Nat) (table : BabyTable) (neg : Bool) : Except ErrorCode DlogHit :=
  match search p f m table (t % p) with
  | some e => .ok ⟨e, false, decide (bound < e)⟩
  | none => if neg then dlogNegative p f bound t m table else .error .notFound

/-- The result of DLOG (rule R82), its checks in the order of 60_exceptions.md rule R103. The stride is SModExp(G, -m, P),
which exists because G has an inverse (rule R81). -/
def dlogResult (entries : Nat) (p g l b t : Int) (neg : Bool) : Except ErrorCode DlogHit :=
  if p < 2 ∨ l < 1 ∨ b < 1 then .error .param
  else if (entries : Int) < dlogM l b then .error .table
  else if hasInv g p then
    match sModExp g (-dlogM l b) p with
    | none => .error .noInv
    | some f => dlogBranches p f (dlogBound l b) t (dlogM l b).toNat (babyTable p g (dlogM l b).toNat) neg
  else .error .noInv

/-- DLOG rd, ra (rule R82). -/
def execDlog (neg : Bool) (rd ra : Reg) (s : State) : Result :=
  conclude s ((dlogResult s.cfg.tableEntries (s.reg regP) (s.reg regG) (s.reg regL) (s.reg regB) (s.reg ra) neg).map
    fun hit => (s.writeDest rd hit.value).setStatus (s.status.withHit hit.negative hit.exceeds))

end Sys2Proof.Machine
end

