-- ==== Sys2Proof/Machine/Modexp.lean ====
section
/-! DEFINITION. The commands of 43_modexp.md: MODEXP, MODMUL, MODINV and MEXPACC. Each is a function of the values its
rule reads, read before anything is written (00_scope.md rule R15), and the write of its result. -/

namespace Sys2Proof.Machine

/-- The value of MODEXP (rule R91): E_PARAM, then E_NOINV. -/
def modexpValue (p b e : Int) : Except ErrorCode Int :=
  if p < 2 then .error .param
  else match sModExp b e p with
    | none => .error .noInv
    | some v => .ok v

/-- The value of MODMUL (rule R92): E_PARAM. -/
def modmulValue (p a b : Int) : Except ErrorCode Int :=
  if p < 2 then .error .param else .ok (a * b % p)

/-- The value of MODINV (rule R93): E_PARAM, then E_NOINV. -/
def modinvValue (p a : Int) : Except ErrorCode Int :=
  if p < 2 then .error .param else if hasInv a p then .ok (inv a p) else .error .noInv

/-- The value of MEXPACC (rule R94): E_PARAM, then E_NOINV. -/
def mexpaccValue (p acc b e : Int) : Except ErrorCode Int :=
  if p < 2 then .error .param
  else match sModExp b e p with
    | none => .error .noInv
    | some v => .ok (acc * v % p)

/-- End a command whose rule gives a value for rd. -/
def State.concludeValue (s : State) (rd : Reg) (r : Except ErrorCode Int) : Result :=
  conclude s (r.map (s.writeDest rd))

/-- MODEXP rd, ra, rb (rule R91). -/
def execModexp (rd ra rb : Reg) (s : State) : Result :=
  s.concludeValue rd (modexpValue (s.reg regP) (s.reg ra) (s.reg rb))

/-- MODMUL rd, ra, rb (rule R92). -/
def execModmul (rd ra rb : Reg) (s : State) : Result :=
  s.concludeValue rd (modmulValue (s.reg regP) (s.reg ra) (s.reg rb))

/-- MODINV rd, ra (rule R93). -/
def execModinv (rd ra : Reg) (s : State) : Result :=
  s.concludeValue rd (modinvValue (s.reg regP) (s.reg ra))

/-- MEXPACC rd, ra, rb (rule R94). -/
def execMexpacc (rd ra rb : Reg) (s : State) : Result :=
  s.concludeValue rd (mexpaccValue (s.reg regP) (s.reg rd) (s.reg ra) (s.reg rb))

end Sys2Proof.Machine
end

