-- ==== Sys2Proof/Machine/Move.lean ====
section
/-! DEFINITION. The commands of 40_move.md: NOP, MOV and LDI. None of them can fail once decoded (rule R101). -/

namespace Sys2Proof.Machine

/-- NOP (rule R65). -/
def execNop (s : State) : Result := finish s

/-- MOV rd, ra (rule R66). -/
def execMov (rd ra : Reg) (s : State) : Result := finish (s.writeDest rd (s.reg ra))

/-- LDI rd, imm (rule R67). -/
def execLdi (rd : Reg) (imm : Int) (s : State) : Result := finish (s.writeDest rd imm)

end Sys2Proof.Machine
end

