-- ==== Sys2Proof/Machine/Validator.lean ====
section
/-! DEFINITION. The group-parameter validator of 41_validator.md: the check functions of rule R72, VALIDATE (rule R73)
and DERIVEH (rule R75). The checks are total and raise no error. -/

namespace Sys2Proof.Machine

/-- `modok` (rule R72). -/
def modok (p : Int) : Bool := decide (2 ≤ p)

/-- SAFE: P = 2*Q + 1. -/
def checkSafe (p q : Int) : Bool := p == 2 * q + 1

/-- GRNG and HRNG: 0 <= v < P. -/
def checkRange (p v : Int) : Bool := decide (0 ≤ v) && decide (v < p)

/-- GNE1 and HNE1: v != 1, as integers. -/
def checkNotOne (v : Int) : Bool := v != 1

/-- GORD and HORD: v^Q = 1 (mod P); 0 where P < 2 or Q < 0. -/
def checkOrder (p q v : Int) : Bool := modok p && decide (0 ≤ q) && powMod v q p == 1

/-- LPOS and BPOS: v >= 1. -/
def checkPositive (v : Int) : Bool := decide (1 ≤ v)

/-- PRECOND: 2*L*B*B <= Q. -/
def checkPrecond (q l b : Int) : Bool := decide (2 * l * b * b ≤ q)

/-- HF1: H != 0 and H does not divide P - 1. -/
def checkFilter1 (p h : Int) : Bool := h != 0 && !divides h (p - 1)

/-- HF2: H has an inverse mod P and that inverse does not divide P - 1. -/
def checkFilter2 (p h : Int) : Bool := modok p && hasInv h p && !divides (inv h p) (p - 1)

/-- VSTATUS after VALIDATE (rule R73): every bit but RRNG and HOK; the H bits are 0 when D = 0. -/
def validated (c : Config) (d : Bool) (p q g h l b : Int) (v : VStatus) : VStatus where
  valid := checkSafe p q && primeTest c p && primeTest c q && checkRange p g && checkNotOne g && checkOrder p q g &&
    checkPositive l && checkPositive b && checkPrecond q l b &&
    (!d || (checkRange p h && checkNotOne h && checkOrder p q h && checkFilter1 p h && checkFilter2 p h))
  safe := checkSafe p q
  pprime := primeTest c p
  qprime := primeTest c q
  grng := checkRange p g
  gne1 := checkNotOne g
  gord := checkOrder p q g
  lpos := checkPositive l
  bpos := checkPositive b
  precond := checkPrecond q l b
  dmode := d
  hrng := d && checkRange p h
  hne1 := d && checkNotOne h
  hord := d && checkOrder p q h
  hf1 := d && checkFilter1 p h
  hf2 := d && checkFilter2 p h
  rrng := v.rrng
  hok := v.hok

/-- VALIDATE (rule R73). -/
def execValidate (d : Bool) (s : State) : Result :=
  finish (s.setVStatus (validated s.cfg d (s.reg regP) (s.reg regQ) (s.reg regG) (s.reg regH) (s.reg regL) (s.reg regB)
    s.vstatus))

/-- The value DERIVEH writes to H (rule R75): E_PARAM, then E_NOINV. -/
def derivehValue (p g r : Int) : Except ErrorCode Int :=
  if p < 2 then .error .param
  else match sModExp g r p with
    | none => .error .noInv
    | some h => .ok h

/-- VSTATUS after DERIVEH wrote h (rule R75): bits [17:11] and VALID; bits [10:1] unchanged. -/
def derived (p q r h : Int) (v : VStatus) : VStatus :=
  { v with
    valid := false
    hrng := checkRange p h
    hne1 := checkNotOne h
    hord := checkOrder p q h
    hf1 := checkFilter1 p h
    hf2 := checkFilter2 p h
    rrng := decide (2 ≤ r) && decide (r < q)
    hok := checkFilter1 p h && checkFilter2 p h }

/-- DERIVEH ra (rule R75). -/
def execDeriveh (ra : Reg) (s : State) : Result :=
  conclude s ((derivehValue (s.reg regP) (s.reg regG) (s.reg ra)).map fun h =>
    (s.setReg regH h).setVStatus (derived (s.reg regP) (s.reg regQ) (s.reg ra) h s.vstatus))

end Sys2Proof.Machine
end

