-- ==== Sys2Proof/Machine/Dispatch.lean ====
section
/-! DEFINITION. The meaning of each command: what its completion step does (30_encoding.md rule R58). -/

namespace Sys2Proof.Machine

def exec (i : Instr) (s : State) : Host.Outcome State Fault Refusal :=
  match i with
  | .nop => Sys2Proof.Machine.execNop s
  | .mov rd ra => Sys2Proof.Machine.execMov rd ra s
  | .ldi rd imm => Sys2Proof.Machine.execLdi rd imm s
  | .modexp rd ra rb => Sys2Proof.Machine.execModexp rd ra rb s
  | .modmul rd ra rb => Sys2Proof.Machine.execModmul rd ra rb s
  | .modinv rd ra => Sys2Proof.Machine.execModinv rd ra s
  | .mexpacc rd ra rb => Sys2Proof.Machine.execMexpacc rd ra rb s
  | .validate d => Sys2Proof.Machine.execValidate d s
  | .deriveh ra => Sys2Proof.Machine.execDeriveh ra s
  | .dlog neg rd ra => Sys2Proof.Machine.execDlog neg rd ra s

end Sys2Proof.Machine
end

