-- ==== Sys2Proof/Machine/Engine.lean ====
section
/-! DEFINITION. The engine's completion step (10_state.md rule R17) and the event step of the whole block (20_memory.md
rule R47). -/

namespace Sys2Proof.Machine

/-- The completion step of the running command (rules R44 and R59): decode the latch; a word that matches no row of the
opcode map completes with E_ILLEGAL (rule R60). -/
def completion (s : State) : Result :=
  match decode s.cmd with
  | none => raiseError s .illegal
  | some i => exec i s

/-- The engine has a step only when BUSY = 1 (rule R17); idle, it does nothing (rule R113). -/
def engineStep (s : State) : Result := if s.status.busy then completion s else .next s

/-- One event of the total order of rule R47. -/
def runEvent (s : State) : Event → Result
  | .access a => access s a
  | .complete => engineStep s
  | .reset => .next s.resetBlock

/-- The next step: the next scheduled event or, when no event is left, the engine's step, so that an issued command
always completes (rules R104 and R123; log entry 2). -/
def nextStep (s : State) : Result :=
  match s.schedule with
  | [] => engineStep s
  | e :: rest => runEvent (s.setSchedule rest) e

/-- The word of an instruction whose bits are `w`, issued, with its completion next. -/
def fetchWord (s : State) (nbits w : Nat) : State :=
  (s.issue (BitVec.ofNat 32 (w % 2 ^ nbits))).setSchedule (.complete :: s.schedule)

end Sys2Proof.Machine
end

