-- ==== Sys2Proof/Machine/Step.lean ====
section
/-! DEFINITION. One step of the machine, and the command word placed where the next step takes it. -/

namespace Sys2Proof.Machine

/-- One step: a host access, the engine's completion or a reset (rules R17 and R47). -/
def step (s : State) : Host.Outcome State Fault Refusal := nextStep s

/-- The block just after the command word `w` was issued, its completion next: a command runs from the latch
(20_memory.md rules R44 and R50; log entry 9). -/
def State.withFetchWord (s : State) (nbits w : Nat) : State := fetchWord s nbits w

end Sys2Proof.Machine
end

