-- ==== Sys2Proof/Machine/Assembler.lean ====
section
/-! DEFINITION. The assembly language of the command words: the syntax of 30_encoding.md rule R62 and the
pseudo-instructions of rule R63. Text is a list of characters, so that a line can be assembled by evaluation. -/

namespace Sys2Proof.Machine

/-- The value of a decimal digit. -/
def decDigit (c : Char) : Option Nat :=
  if '0' ≤ c ∧ c ≤ '9' then some (c.toNat - '0'.toNat) else none

/-- The value of a hexadecimal digit, of either case. -/
def hexDigit (c : Char) : Option Nat :=
  if '0' ≤ c ∧ c ≤ '9' then some (c.toNat - '0'.toNat)
  else if 'a' ≤ c ∧ c ≤ 'f' then some (c.toNat - 'a'.toNat + 10)
  else if 'A' ≤ c ∧ c ≤ 'F' then some (c.toNat - 'A'.toNat + 10)
  else none

/-- Digits after the value `acc` in a base. -/
def digitsFrom (base : Nat) (digit : Char → Option Nat) : List Char → Nat → Option Nat
  | [], acc => some acc
  | c :: cs, acc => (digit c).bind fun d => digitsFrom base digit cs (base * acc + d)

/-- A number of at least one digit. -/
def number (base : Nat) (digit : Char → Option Nat) : List Char → Option Nat
  | [] => none
  | c :: cs => digitsFrom base digit (c :: cs) 0

/-- An immediate: decimal, optionally signed, or `0x` hexadecimal, in the range of rule R57 (rule R62). -/
def parseImm (cs : List Char) : Option Int :=
  let v : Option Int :=
    match cs with
    | '0' :: 'x' :: hs => (number 16 hexDigit hs).map Int.ofNat
    | '-' :: ds => (number 10 decDigit ds).map fun n => -Int.ofNat n
    | '+' :: ds => (number 10 decDigit ds).map Int.ofNat
    | ds => (number 10 decDigit ds).map Int.ofNat
  v.filter immInRange

/-- A register: `r0`..`r15` or an alias (rules R20 and R62). -/
def parseReg (cs : List Char) : Option Reg :=
  match cs with
  | ['p'] => some 0
  | ['q'] => some 1
  | ['g'] => some 2
  | ['h'] => some 3
  | ['l'] => some 4
  | ['b'] => some 5
  | 'r' :: ds =>
    if ds.length = 1 ∨ (ds.length = 2 ∧ ds.head? = some '1') then
      (number 10 decDigit ds).bind fun n => if h : n < 16 then some ⟨n, h⟩ else none
    else none
  | _ => none

/-- The command a mnemonic and its operands spell (rules R62 and R63). -/
def assemble (mnemonic : List Char) (operands : List (List Char)) : Option Instr :=
  match operands with
  | [] =>
    if mnemonic = "nop".toList then some .nop
    else if mnemonic = "validate".toList then some (.validate false)
    else if mnemonic = "validate.d".toList then some (.validate true)
    else none
  | [x] =>
    if mnemonic = "deriveh".toList then (parseReg x).map .deriveh
    else if mnemonic = "setone".toList then (parseReg x).map .setone
    else if mnemonic = "clr".toList then (parseReg x).map .clr
    else none
  | [x, y] =>
    if mnemonic = "ldi".toList then (parseReg x).bind fun rd => (parseImm y).map (.ldi rd)
    else (parseReg x).bind fun rd => (parseReg y).bind fun ra =>
      if mnemonic = "mov".toList then some (.mov rd ra)
      else if mnemonic = "modinv".toList then some (.modinv rd ra)
      else if mnemonic = "dlog".toList then some (.dlog false rd ra)
      else if mnemonic = "dlog.neg".toList then some (.dlog true rd ra)
      else none
  | [x, y, z] =>
    (parseReg x).bind fun rd => (parseReg y).bind fun ra => (parseReg z).bind fun rb =>
      if mnemonic = "modexp".toList then some (.modexp rd ra rb)
      else if mnemonic = "modmul".toList then some (.modmul rd ra rb)
      else if mnemonic = "mexpacc".toList then some (.mexpacc rd ra rb)
      else none
  | _ => none

/-- Text without the blanks at its ends. -/
def trimmed (cs : List Char) : List Char :=
  ((cs.dropWhile (· = ' ')).reverse.dropWhile (· = ' ')).reverse

/-- The pieces of a text between commas; `piece` is the piece being read, last character first. -/
def splitCommas : List Char → List Char → List (List Char)
  | [], piece => [trimmed piece.reverse]
  | c :: cs, piece => if c = ',' then trimmed piece.reverse :: splitCommas cs [] else splitCommas cs (c :: piece)

/-- One line of assembly: a command, then `;` and a comment (rule R62). -/
def assembleLine (line : List Char) : Option Instr :=
  let text := trimmed (line.takeWhile (· ≠ ';'))
  let mnemonic := text.takeWhile (· ≠ ' ')
  let rest := trimmed (text.dropWhile (· ≠ ' '))
  assemble mnemonic (if rest = [] then [] else splitCommas rest [])

end Sys2Proof.Machine
end

