-- ==== Sys2Proof/Machine/HostProgram.lean ====
section
/-! DEFINITION. Several steps in a row, and the host pseudo-operation `issue` of 30_encoding.md rule R64, whose polling
loop decides from each STATUS word read whether it reads again. -/

namespace Sys2Proof.Machine

/-- n steps, stopping at the first fault or refusal. -/
def run : Nat → State → Result
  | 0, s => .next s
  | n + 1, s =>
    match step s with
    | .next t => run n t
    | .fault f => .fault f
    | .refused r => .refused r

/-- `repeat s <- MemRead(0x0010, 4) until s[0] = 0` (rule R64): the STATUS word that ends the loop and the state after it.
Each list holds the events that come before one more read; which they are is the interleaving's choice (log entry 21).
`none`: the loop still polls when the lists end, or an access faulted. -/
def pollLoop (host : Nat) : List (List Event) → State → Option (Word × State)
  | [], _ => none
  | es :: rounds, s =>
    match run (es.length + 1) (s.setSchedule (es ++ [pollEvent s.cfg host])) with
    | .next t =>
      match t.replies with
      | [] => none
      | r :: _ => if r.value.getLsbD 0 then pollLoop host rounds t else some (r.value, t)
    | .fault _ => none
    | .refused _ => none

/-- `issue <command> -> s` (rule R64), which requires BUSY = 0: the write of the command's word to CMD, then the polling
loop. -/
def issueCommand (host : Nat) (i : Instr) (rounds : List (List Event)) (s : State) : Option (Word × State) :=
  match step (s.setSchedule [issueEvent s.cfg host (encode i)]) with
  | .next t => pollLoop host rounds t
  | .fault _ => none
  | .refused _ => none

end Sys2Proof.Machine
end

