-- ==== Sys2Proof/Safety.lean ====
section
/-! DEFINITION. What statements about the block are said in: the ranges and the invariants of its state, what a command
leaves unchanged, and the end and the observation of a run (70_reset_and_hazards.md rule R125). -/

namespace Sys2Proof.Machine

/-- The value range of an operand register (rule R19). -/
abbrev InRange (c : Config) (x : Int) : Prop := -2 ^ (c.rw - 1) ≤ x ∧ x < 2 ^ (c.rw - 1)

/-- Every operand register is in range (rule R19). -/
abbrev State.RegsInRange (s : State) : Prop := ∀ i : Reg, InRange s.cfg (s.reg i)

/-- The parameters and the register values the spec allows (rules R6, R7 and R19). -/
abbrev State.Ready (s : State) : Prop := s.cfg.Ok ∧ s.RegsInRange

/-- What the STATUS fields say together (rules R27, R44, R83, R99, R100): while a command runs every outcome field is
0; ERR and a nonzero ECODE come together; FOUND is of a success, and NEGHIT and EXCEEDS come with FOUND only. -/
abbrev Status.Coherent (t : Status) : Prop :=
  (t.busy = true → t.done = false) ∧ (t.done = false → t.err = false ∧ t.found = false) ∧
  (t.err = t.ecode.isSome) ∧ (t.found = true → t.err = false) ∧
  (t.neghit = true → t.found = true) ∧ (t.exceeds = true → t.found = true)

/-- The group checks of rule R72 hold of the register values (rule R73, D = 0). -/
def State.GroupChecksHold (s : State) : Prop :=
  s.reg regP = 2 * s.reg regQ + 1 ∧ primeTest s.cfg (s.reg regP) = true ∧ primeTest s.cfg (s.reg regQ) = true ∧
  0 ≤ s.reg regG ∧ s.reg regG < s.reg regP ∧ s.reg regG ≠ 1 ∧
  s.reg regG ^ (s.reg regQ).toNat % s.reg regP = 1 ∧
  1 ≤ s.reg regL ∧ 1 ≤ s.reg regB ∧ 2 * s.reg regL * s.reg regB * s.reg regB ≤ s.reg regQ

/-- The Damgård checks of rule R72 hold of the register values (rule R73, D = 1). -/
def State.DamgardChecksHold (s : State) : Prop :=
  0 ≤ s.reg regH ∧ s.reg regH < s.reg regP ∧ s.reg regH ≠ 1 ∧
  s.reg regH ^ (s.reg regQ).toNat % s.reg regP = 1 ∧ s.reg regH ≠ 0 ∧ ¬ s.reg regH ∣ s.reg regP - 1 ∧
  ∃ x : Int, 1 ≤ x ∧ x < s.reg regP ∧ s.reg regH * x % s.reg regP = 1 ∧ ¬ x ∣ s.reg regP - 1

/-- VALID = 1 describes the register values of now (rules R29 and R30). -/
def State.ValidDescribesRegisters (s : State) : Prop :=
  s.vstatus.valid = true → s.GroupChecksHold ∧ (s.vstatus.dmode = true → s.DamgardChecksHold)

/-- The invariant of the block: legal parameters, register values in range, a coherent STATUS. -/
abbrev State.Inv (s : State) : Prop := s.cfg.Ok ∧ s.RegsInRange ∧ s.status.Coherent

/-- The part of the state no command writes: the parameters, CTRL, the latch, OVR, the schedule and what the host side
has seen (rules R26 to R28, R44, R99, R100). -/
def State.SameOutside (s t : State) : Prop :=
  t.cfg = s.cfg ∧ t.ctrl = s.ctrl ∧ t.cmd = s.cmd ∧ t.status.ovr = s.status.ovr ∧ t.schedule = s.schedule ∧
  t.draws = s.draws ∧ t.replies = s.replies

/-- The block itself is unchanged: every register, CTRL, STATUS, CMD and VSTATUS (rule R43). -/
def State.SameBlock (s t : State) : Prop :=
  t.cfg = s.cfg ∧ t.regs = s.regs ∧ t.ctrl = s.ctrl ∧ t.status = s.status ∧ t.cmd = s.cmd ∧ t.vstatus = s.vstatus

/-- STATUS is that of a successful completion of a command other than DLOG (rule R99): BUSY, DONE, ERR, ECODE and IRQP
are written, every other field keeps its value. -/
def State.Succeeded (s t : State) : Prop :=
  t.status.busy = false ∧ t.status.done = true ∧ t.status.err = false ∧ t.status.ecode = none ∧
  t.status.irqp = true ∧ t.status.found = s.status.found ∧ t.status.neghit = s.status.neghit ∧
  t.status.exceeds = s.status.exceeds

/-- The registers other than rd keep their values. -/
def State.OtherRegsKept (s t : State) (rd : Reg) : Prop := ∀ j : Reg, j ≠ rd → t.reg j = s.reg j

/-- VSTATUS after a command whose destination is rd (rule R30 (b)): VALID is cleared when rd <= 5, nothing else
changes. -/
def State.ValidAfterWrite (s t : State) (rd : Reg) : Prop :=
  t.vstatus = if rd ≤ 5 then { s.vstatus with valid := false } else s.vstatus

/-- `t` is `s` after a successful command that wrote v to rd, with nothing else changed (rules R30 and R99). -/
def State.WroteOnly (s t : State) (rd : Reg) (v : Int) : Prop :=
  t.reg rd = v ∧ s.OtherRegsKept t rd ∧ s.ValidAfterWrite t rd ∧ s.Succeeded t ∧ s.SameOutside t

/-- `t` is `s` after an error completion (rule R100): no operand register and no VSTATUS bit changes, FOUND, NEGHIT and
EXCEEDS stay, and STATUS reports the code. -/
def State.FailedWith (s t : State) (e : ErrorCode) : Prop :=
  (∀ j : Reg, t.reg j = s.reg j) ∧ t.vstatus = s.vstatus ∧ s.SameOutside t ∧
  t.status.found = s.status.found ∧ t.status.neghit = s.status.neghit ∧ t.status.exceeds = s.status.exceeds ∧
  t.status.busy = false ∧ t.status.done = true ∧ t.status.err = true ∧ t.status.ecode = some e ∧
  t.status.irqp = true

/-- a has an inverse mod p (rule R13). -/
abbrev Invertible (a p : Int) : Prop := Int.gcd (a % p) p = 1

/-- x is the inverse of a mod p, the value rule R13 names. -/
def IsInverse (a p x : Int) : Prop := 1 ≤ x ∧ x < p ∧ a * x % p = 1

/-- v = SModExp(b, e, p) (rule R89): the power for e >= 0, the inverse of the power of -e for e < 0. -/
def IsSignedPower (b e p v : Int) : Prop :=
  (0 ≤ e → v = (b % p) ^ e.toNat % p) ∧ (e < 0 → IsInverse ((b % p) ^ (-e).toNat % p) p v)

/-- m is the search size of DLOG for L and B (rules R12 and R79): one more than the least c >= 0 with c*c >= L*B*B. -/
def IsSearchSize (l b m : Int) : Prop :=
  ∃ c : Int, 0 ≤ c ∧ l * b * b ≤ c * c ∧ (∀ k : Int, 0 ≤ k → l * b * b ≤ k * k → c ≤ k) ∧ m = c + 1

/-- e is the least exponent of [0, m*(m+1) - 1] whose power of g is y mod p: min Hits(y) (rule R84). -/
def IsLeastHit (p g m y : Int) (e : Nat) : Prop :=
  (e : Int) ≤ m * (m + 1) - 1 ∧ g ^ e % p = y ∧ ∀ k < e, g ^ k % p ≠ y

/-- Hits(y) is empty (rule R84). -/
def HasNoHit (p g m y : Int) : Prop := ∀ k : Nat, (k : Int) ≤ m * (m + 1) - 1 → g ^ k % p ≠ y

/-- DLOG passes its first checks with the search size m: E_PARAM, E_TABLE and the inverse of G (rules R82 and R103). -/
def State.DlogSearches (s : State) (m : Int) : Prop :=
  2 ≤ s.reg regP ∧ 1 ≤ s.reg regL ∧ 1 ≤ s.reg regB ∧ IsSearchSize (s.reg regL) (s.reg regB) m ∧
  m ≤ s.cfg.tableEntries ∧ Invertible (s.reg regG) (s.reg regP)

/-- `t` is `s` after a successful DLOG that wrote v to rd (rules R30, R82, R83 and R99). -/
def State.FoundOnly (s t : State) (rd : Reg) (v : Int) (negative : Bool) (exceeds : Prop) : Prop :=
  t.reg rd = v ∧ s.OtherRegsKept t rd ∧ s.ValidAfterWrite t rd ∧ s.SameOutside t ∧
  t.status.busy = false ∧ t.status.done = true ∧ t.status.err = false ∧ t.status.ecode = none ∧
  t.status.irqp = true ∧ t.status.found = true ∧ t.status.neghit = negative ∧ (t.status.exceeds = true ↔ exceeds)

/-- An access the block answers: inside the window, 32 bits wide, aligned (rules R36 and R40). -/
abbrev Access.Accepted (a : Access) (c : Config) : Prop :=
  c.base ≤ a.addr ∧ a.addr < c.base + 0x8000 ∧ a.bytes = 4 ∧ (a.addr - c.base) % 4 = 0

/-- The next event is this host access. -/
abbrev State.NextIs (s : State) (e : Event) (rest : List Event) : Prop := s.schedule = e :: rest

/-- Whether an event is a host access. -/
def Event.isAccess : Event → Bool
  | .access _ => true
  | .complete => false
  | .reset => false

/-- The run is over: no host access is left and no command runs (rule R125). Other events may be left; the run ends
before them. -/
abbrev State.RunOver (s : State) : Prop := s.schedule.any Event.isAccess = false ∧ s.status.busy = false

/-- The first state of a run at which it is over (rule R125), within n steps; `none` where there is none. -/
def endOfRun : Nat → State → Option State
  | 0, s => if s.RunOver then some s else none
  | n + 1, s =>
    if s.RunOver then some s
    else match step s with
      | .next t => endOfRun n t
      | .fault _ => none
      | .refused _ => none

/-- A launch state a model may name besides reset (rule R124): nothing in flight, OVR = 0 and IRQP = 0. -/
def State.LaunchState (s : State) : Prop :=
  s.status.busy = false ∧ s.status.ovr = false ∧ s.status.irqp = false

/-- What is observed of an ended run (rule R125). -/
structure Observation where
  regs : Vector Int 16
  status : Word
  vstatus : Word
  ctrl : Word
  cmd : Word
  replies : List Reply
  deriving DecidableEq, Repr

/-- The observation of a state (rule R125). -/
def State.observe (s : State) : Observation where
  regs := s.regs
  status := s.status.toWord
  vstatus := s.vstatus.toWord
  ctrl := s.ctrl.toWord
  cmd := s.cmd
  replies := s.replies

end Sys2Proof.Machine
end

