-- ==== Sys2Proof/Certificates/Slice0/Obligations.lean ====
section
/-! DEFINITION. The statements about the gofe DL engine for the provers: what reset leaves, what a command word means,
what each command writes and leaves unchanged, where it fails, what a host access does, and what every step keeps. -/

open Sys2Proof Sys2Proof.Machine

/-- 10_state.md rule R35, for every configuration: what reset leaves, as registers and as the words software reads. The
BSGS table of that rule is no state of the model (rule R31, log entry 11). The reference values of NW and TABLE_ENTRIES
are those of 00_scope.md rules R6 and R7. -/
def Obligations.ResetStateHoldsTheResetValues : Prop :=
  (∀ c : Config, (∀ i : Reg, (State.resetOf c).reg i = 0) ∧
    (State.resetOf c).ctrl.toWord = 0 ∧ (State.resetOf c).status.toWord = 0 ∧
    (State.resetOf c).status.busy = false ∧ (State.resetOf c).status.ecode = none ∧
    (State.resetOf c).cmd = 0 ∧ (State.resetOf c).vstatus.toWord = 0 ∧ (State.resetOf c).irq = false ∧
    (State.resetOf c).windowWord 0x0000 = 0x474F4645 ∧
    (c.Ok → (State.resetOf c).windowWord 0x0004 = BitVec.ofNat 32 c.nw ∧
      (State.resetOf c).windowWord 0x0008 = BitVec.ofNat 32 c.tableEntries)) ∧
  State.reset = State.resetOf Config.reference ∧ State.reset.cfg.nw = 129 ∧ State.reset.cfg.tableEntries = 2 ^ 20

/-- 70_reset_and_hazards.md rule R114: a reset event, at any time, puts every piece of the block's state to its reset
value; a running command has no effect. (That the schedule goes on and replies stay is the model's, log entry 16.) -/
def Obligations.ResetEventRestoresTheResetState : Prop :=
  ∀ (s : State) (rest : List Event), s.NextIs .reset rest →
    ∃ t, step s = .next t ∧ t.cfg = s.cfg ∧ (∀ i : Reg, t.reg i = 0) ∧ t.ctrl = ⟨false⟩ ∧
      t.status.toWord = 0 ∧ t.status.busy = false ∧ t.cmd = 0 ∧ t.vstatus.toWord = 0 ∧ t.irq = false ∧
      t.schedule = rest ∧ t.replies = s.replies

/-- 30_encoding.md rule R61: each worked line assembles to its command, whose word is the one given and decodes back to
it; the illegal examples decode to nothing. -/
def Obligations.WorkedEncodingsDecode : Prop :=
  (∀ r ∈ [("nop", 0x00000000#32, Instr.nop), ("mov r6, r7", 0x00007601, .mov 6 7),
      ("ldi r8, -7", 0xFFF90802, .ldi 8 (-7)), ("ldi p, 1283", 0x05030002, .ldi 0 1283),
      ("modexp r8, r9, r10", 0x000A9810, .modexp 8 9 10), ("modmul r6, r6, r7", 0x00076611, .modmul 6 6 7),
      ("modinv r7, r7", 0x00007712, .modinv 7 7), ("mexpacc r6, r8, r11", 0x000B8613, .mexpacc 6 8 11),
      ("validate", 0x00000020, .validate false), ("validate.d", 0x00100020, .validate true),
      ("deriveh r6", 0x00006021, .deriveh 6), ("dlog r6, r7", 0x00007630, .dlog false 6 7),
      ("dlog.neg r6, r7", 0x00107630, .dlog true 6 7)],
    assembleLine r.1.toList = some r.2.2 ∧ encode r.2.2 = r.2.1 ∧ decode r.2.1 = some r.2.2) ∧
  (∀ w ∈ [0x00000003#32, 0x00000100, 0x00200030, 0x01007630, 0x00001002, 0x00000120], decode w = none)

/-- Decode and encode agree on every well-formed command (30_encoding.md rules R55 to R59). -/
def Obligations.DecodeOfEncodeIsTheCommand : Prop :=
  ∀ i : Instr, i.wellFormed = true → decode (encode i) = some i

/-- Every word the decoder accepts is the encoding of the command it reads: no bit of a legal word is dropped
(30_encoding.md rules R55 to R60). -/
def Obligations.EncodeOfDecodeIsTheWord : Prop :=
  ∀ (w : Word) (i : Instr), decode w = some i → i.wellFormed = true ∧ encode i = w

/-- 30_encoding.md rule R60, in the fields of rule R55: a word is illegal exactly when its OPC is none of the ten or a
field its command marks 0 is not 0; and every illegal word completes with E_ILLEGAL and writes nothing. -/
def Obligations.IllegalWordsAreExactlyThoseOfTheRule : Prop :=
  (∀ w : Word, decode w = none ↔
    (w.extractLsb' 0 8 ∉ [0x00#8, 0x01#8, 0x02#8, 0x10#8, 0x11#8, 0x12#8, 0x13#8, 0x20#8, 0x21#8, 0x30#8] ∨
     (w.extractLsb' 0 8 = 0x00#8 ∧ w.extractLsb' 8 24 ≠ 0) ∨
     (w.extractLsb' 0 8 = 0x01#8 ∧ w.extractLsb' 16 16 ≠ 0) ∨
     (w.extractLsb' 0 8 = 0x02#8 ∧ w.extractLsb' 12 4 ≠ 0) ∨
     (w.extractLsb' 0 8 ∈ [0x10#8, 0x11#8, 0x13#8] ∧ w.extractLsb' 20 12 ≠ 0) ∨
     (w.extractLsb' 0 8 = 0x12#8 ∧ w.extractLsb' 16 16 ≠ 0) ∨
     (w.extractLsb' 0 8 = 0x20#8 ∧ (w.extractLsb' 8 12 ≠ 0 ∨ w.extractLsb' 21 11 ≠ 0)) ∨
     (w.extractLsb' 0 8 = 0x21#8 ∧ (w.extractLsb' 8 4 ≠ 0 ∨ w.extractLsb' 16 16 ≠ 0)) ∨
     (w.extractLsb' 0 8 = 0x30#8 ∧ (w.extractLsb' 16 4 ≠ 0 ∨ w.extractLsb' 21 11 ≠ 0)))) ∧
  (∀ (s : State) (rest : List Event), s.status.busy = true → s.NextIs .complete rest → decode s.cmd = none →
    ∃ t, step s = .next t ∧ (s.setSchedule rest).FailedWith t .illegal)

/-- 30_encoding.md rule R58: no word spells two rows of the opcode map. -/
def Obligations.NoWordSpellsTwoRows : Prop :=
  opcodeRows.Pairwise fun a b => ∀ w : Word, ¬ (a.spells w = true ∧ b.spells w = true)

/-- A step runs the decoded command (10_state.md rule R17, 30_encoding.md rule R59): when the engine's completion is
next, step is exec of the command in the latch, with the event taken off the schedule; so a word written to CMD while
idle and then completed is exec of the command it spells, on the state at issue. With no event left the engine takes its
step too: that is the model's form of weak fairness (log entry 2). -/
def Obligations.StepRunsTheDecodedCommand : Prop :=
  (∀ (s : State) (i : Instr), s.status.busy = true → decode s.cmd = some i →
    (∀ rest, s.NextIs .complete rest → step s = exec i (s.setSchedule rest)) ∧
    (s.schedule = [] → step s = exec i s)) ∧
  (∀ (s : State) (i : Instr) (w : Word) (host : Nat) (rest : List Event), s.status.busy = false → decode w = some i →
    run 1 (s.setSchedule (issueEvent s.cfg host w :: .complete :: rest)) =
      .next ((s.setSchedule (.complete :: rest)).issue w) ∧
    step ((s.setSchedule (.complete :: rest)).issue w) = exec i ((s.setSchedule rest).issue w))

/-- 60_exceptions.md rule R113 and 10_state.md rule R17: idle, the engine has no step and the block keeps everything. -/
def Obligations.IdleEngineKeepsEverything : Prop :=
  ∀ s : State, s.status.busy = false →
    (s.schedule = [] → step s = .next s) ∧
    (∀ rest, s.NextIs .complete rest → step s = .next (s.setSchedule rest))

/-- Every issued word completes, in exactly one of two ways (60_exceptions.md rules R98, R99, R100 and R104): success,
or an error that wrote nothing. -/
def Obligations.EveryIssuedWordCompletes : Prop :=
  ∀ (s : State) (rest : List Event), s.status.busy = true → s.NextIs .complete rest →
    ∃ t, step s = .next t ∧ (s.setSchedule rest).SameOutside t ∧ t.status.busy = false ∧
      t.status.done = true ∧ t.status.irqp = true ∧
      ((t.status.err = false ∧ t.status.ecode = none) ∨ ∃ e, (s.setSchedule rest).FailedWith t e)

/-- A run over any finite schedule of accepted accesses ends idle: no command hangs (60_exceptions.md rule R104,
70_reset_and_hazards.md rules R123 and R125; that the engine steps when no event is left is the model's, log entry 2).
The run is over, as rule R125 says, at some state on the way: no host access is left there and BUSY = 0. -/
def Obligations.EveryFiniteRunEndsIdle : Prop :=
  ∀ s : State, (∀ a, Event.access a ∈ s.schedule → a.Accepted s.cfg) →
    (∃ t, run (s.schedule.length + 1) s = .next t ∧ t.schedule = [] ∧ t.status.busy = false) ∧
    ∃ u, endOfRun (s.schedule.length + 1) s = some u ∧ (∀ a, Event.access a ∉ u.schedule) ∧ u.status.busy = false

/-- 40_move.md rule R65: NOP changes nothing but the STATUS fields of every completion; from idle with OVR = 0 it leaves
STATUS = 0x00000082. -/
def Obligations.NopOnlyCompletes : Prop :=
  (∀ s : State, ∃ t, exec .nop s = .next t ∧ (∀ i : Reg, t.reg i = s.reg i) ∧ t.vstatus = s.vstatus ∧
    s.Succeeded t ∧ s.SameOutside t) ∧
  (∀ s : State, s.status.ovr = false → ∃ t, exec .nop (s.issue (encode .nop)) = .next t ∧
    t.status.toWord = 0x00000082)

/-- 40_move.md rule R66: MOV copies ra to rd; VALID is cleared when rd <= 5; nothing else changes. -/
def Obligations.MovCopiesTheRegister : Prop :=
  ∀ (rd ra : Reg) (s : State), s.Ready → ∃ t, exec (.mov rd ra) s = .next t ∧ s.WroteOnly t rd (s.reg ra)

/-- 40_move.md rule R67: LDI writes the signed immediate; a negative one fills every upper word with ones. -/
def Obligations.LdiWritesTheImmediate : Prop :=
  ∀ (rd : Reg) (imm : Int) (s : State), s.Ready → (Instr.ldi rd imm).wellFormed = true →
    ∃ t, exec (.ldi rd imm) s = .next t ∧ s.WroteOnly t rd imm ∧
      (imm < 0 → ∀ w, 1 ≤ w → w < s.cfg.nw → operandWord t.cfg (t.reg rd) w = 0xFFFFFFFF)

/-- 43_modexp.md rules R89 and R91: MODEXP writes the signed power, whenever P >= 2 and the exponent is non-negative or
the base invertible. -/
def Obligations.ModexpWritesTheSignedPower : Prop :=
  ∀ (rd ra rb : Reg) (s : State), s.Ready → 2 ≤ s.reg regP →
    (0 ≤ s.reg rb ∨ Invertible (s.reg ra) (s.reg regP)) →
    ∃ t v, exec (.modexp rd ra rb) s = .next t ∧ IsSignedPower (s.reg ra) (s.reg rb) (s.reg regP) v ∧
      s.WroteOnly t rd v

/-- 43_modexp.md rule R92: MODMUL writes the product reduced mod P, exact before the reduction. -/
def Obligations.ModmulWritesTheReducedProduct : Prop :=
  ∀ (rd ra rb : Reg) (s : State), s.Ready → 2 ≤ s.reg regP →
    ∃ t, exec (.modmul rd ra rb) s = .next t ∧ s.WroteOnly t rd (s.reg ra * s.reg rb % s.reg regP)

/-- 43_modexp.md rule R93: MODINV writes the inverse mod P of an invertible value. -/
def Obligations.ModinvWritesTheInverse : Prop :=
  ∀ (rd ra : Reg) (s : State), s.Ready → 2 ≤ s.reg regP → Invertible (s.reg ra) (s.reg regP) →
    ∃ t x, exec (.modinv rd ra) s = .next t ∧ IsInverse (s.reg ra) (s.reg regP) x ∧ s.WroteOnly t rd x

/-- 43_modexp.md rule R94: MEXPACC multiplies the accumulator by the signed power, with every source read before the
write. -/
def Obligations.MexpaccMultipliesTheAccumulator : Prop :=
  ∀ (rd ra rb : Reg) (s : State), s.Ready → 2 ≤ s.reg regP →
    (0 ≤ s.reg rb ∨ Invertible (s.reg ra) (s.reg regP)) →
    ∃ t v, exec (.mexpacc rd ra rb) s = .next t ∧ IsSignedPower (s.reg ra) (s.reg rb) (s.reg regP) v ∧
      s.WroteOnly t rd (s.reg rd * v % s.reg regP)

/-- 60_exceptions.md rules R100, R101 and R103: a modulus below 2 ends every command that reduces mod P with E_PARAM,
whatever else is wrong, and nothing is written. -/
def Obligations.ModulusBelowTwoIsEParam : Prop :=
  ∀ (rd ra rb : Reg) (neg : Bool) (s : State), s.reg regP < 2 →
    ∀ i ∈ [Instr.modexp rd ra rb, .modmul rd ra rb, .modinv rd ra, .mexpacc rd ra rb, .deriveh ra, .dlog neg rd ra],
      ∃ t, exec i s = .next t ∧ s.FailedWith t .param

/-- 43_modexp.md rules R89, R91, R93, R94 and 41_validator.md rule R75: a needed inverse that does not exist ends the
command with E_NOINV, and nothing is written. -/
def Obligations.MissingInverseIsENoInv : Prop :=
  ∀ (rd ra rb : Reg) (s : State), 2 ≤ s.reg regP →
    (s.reg rb < 0 → ¬ Invertible (s.reg ra) (s.reg regP) →
      (∃ t, exec (.modexp rd ra rb) s = .next t ∧ s.FailedWith t .noInv) ∧
      (∃ t, exec (.mexpacc rd ra rb) s = .next t ∧ s.FailedWith t .noInv)) ∧
    (¬ Invertible (s.reg ra) (s.reg regP) → ∃ t, exec (.modinv rd ra) s = .next t ∧ s.FailedWith t .noInv) ∧
    (s.reg ra < 0 → ¬ Invertible (s.reg regG) (s.reg regP) →
      ∃ t, exec (.deriveh ra) s = .next t ∧ s.FailedWith t .noInv)

/-- 00_scope.md rule R12: csqrt(n) is the least s >= 0 with s*s >= n, with no rounding at any size; and the rule's five
values. -/
def Obligations.CeilingSquareRootIsTheLeast : Prop :=
  (∀ n : Int, 0 ≤ n → 0 ≤ csqrt n ∧ n ≤ csqrt n * csqrt n ∧ ∀ k : Int, 0 ≤ k → n ≤ k * k → csqrt n ≤ k) ∧
  csqrt 0 = 0 ∧ csqrt 1 = 1 ∧ csqrt 2 = 2 ∧ csqrt 50 = 8 ∧ csqrt 300 = 18

/-- 00_scope.md rule R13: HasInv is coprimality with the modulus; where it holds Inv is the one inverse in [1, p); a
multiple of p has none, nor has any value without HasInv; MODINV, which needs it, says E_NOINV there. -/
def Obligations.InverseIsTheOnlyOne : Prop :=
  ∀ a p : Int, 2 ≤ p →
    (hasInv a p = true ↔ Int.gcd (a % p) p = 1) ∧
    (hasInv a p = true → IsInverse a p (inv a p) ∧ ∀ x, IsInverse a p x → x = inv a p) ∧
    (hasInv a p = false → (∀ x, ¬ IsInverse a p x) ∧ modinvValue p a = .error .noInv) ∧
    (a % p = 0 → hasInv a p = false)

/-- 00_scope.md rule R14: PowMod is the power of the reduced base, reduced; a power to 0 is 1 for every base. -/
def Obligations.PowModIsThePower : Prop :=
  ∀ b e p : Int, 2 ≤ p → 0 ≤ e → powMod b e p = (b % p) ^ e.toNat % p ∧ powMod b 0 p = 1

/-- 43_modexp.md rule R89: for an invertible base the signed power of a sum of exponents is the product of the signed
powers mod p, so SModExp is a homomorphism on all of Int. -/
def Obligations.SignedPowersMultiply : Prop :=
  ∀ b e1 e2 p : Int, 2 ≤ p → Invertible b p →
    ∃ v1 v2, sModExp b e1 p = some v1 ∧ sModExp b e2 p = some v2 ∧ sModExp b (e1 + e2) p = some (v1 * v2 % p)

/-- 00_scope.md rule R8: PrimeTest is 1 on every prime and 0 below 2, in every configuration; in the reference
configuration it is exact primality; and its value on composite numbers is left open: every test that obeys the two laws
is, on the numbers a register holds, the PrimeTest of some configuration. -/
def Obligations.PrimeTestObeysItsLaws : Prop :=
  (∀ (c : Config) (n : Int), 0 ≤ n → n.toNat.Prime → primeTest c n = true) ∧
  (∀ (c : Config) (n : Int), n < 2 → primeTest c n = false) ∧
  (∀ n : Int, 2 ≤ n → (primeTest Config.reference n = true ↔ n.toNat.Prime)) ∧
  (∀ (c : Config) (f : Int → Bool), (∀ n : Int, 0 ≤ n → n.toNat.Prime → f n = true) → (∀ n : Int, n < 2 → f n = false) →
    ∃ l : List Int, ∀ n : Int, InRange c n → primeTest { c with composites := l } n = f n)

/-- 41_validator.md rules R72 and R73: VALIDATE writes each group check of the register values, keeps RRNG and HOK, and
writes no operand register. -/
def Obligations.ValidateWritesTheGroupChecks : Prop :=
  ∀ (d : Bool) (s : State), ∃ t, exec (.validate d) s = .next t ∧ (∀ i : Reg, t.reg i = s.reg i) ∧
    s.Succeeded t ∧ s.SameOutside t ∧
    (t.vstatus.safe = true ↔ s.reg regP = 2 * s.reg regQ + 1) ∧
    t.vstatus.pprime = primeTest s.cfg (s.reg regP) ∧ t.vstatus.qprime = primeTest s.cfg (s.reg regQ) ∧
    (t.vstatus.grng = true ↔ 0 ≤ s.reg regG ∧ s.reg regG < s.reg regP) ∧
    (t.vstatus.gne1 = true ↔ s.reg regG ≠ 1) ∧
    (t.vstatus.gord = true ↔ 2 ≤ s.reg regP ∧ 0 ≤ s.reg regQ ∧
      (s.reg regG % s.reg regP) ^ (s.reg regQ).toNat % s.reg regP = 1) ∧
    (t.vstatus.lpos = true ↔ 1 ≤ s.reg regL) ∧ (t.vstatus.bpos = true ↔ 1 ≤ s.reg regB) ∧
    (t.vstatus.precond = true ↔ 2 * s.reg regL * s.reg regB * s.reg regB ≤ s.reg regQ) ∧
    t.vstatus.dmode = d ∧ t.vstatus.rrng = s.vstatus.rrng ∧ t.vstatus.hok = s.vstatus.hok

/-- 41_validator.md rules R72 and R73: the H bits of VALIDATE, 0 when D = 0; the filters divide P - 1 by H and by the
inverse of H mod P. -/
def Obligations.ValidateWritesTheDamgardChecks : Prop :=
  ∀ s : State,
    (∃ t, exec (.validate false) s = .next t ∧ t.vstatus.hrng = false ∧ t.vstatus.hne1 = false ∧
      t.vstatus.hord = false ∧ t.vstatus.hf1 = false ∧ t.vstatus.hf2 = false) ∧
    (∃ t, exec (.validate true) s = .next t ∧
      (t.vstatus.hrng = true ↔ 0 ≤ s.reg regH ∧ s.reg regH < s.reg regP) ∧
      (t.vstatus.hne1 = true ↔ s.reg regH ≠ 1) ∧
      (t.vstatus.hord = true ↔ 2 ≤ s.reg regP ∧ 0 ≤ s.reg regQ ∧
        (s.reg regH % s.reg regP) ^ (s.reg regQ).toNat % s.reg regP = 1) ∧
      (t.vstatus.hf1 = true ↔ s.reg regH ≠ 0 ∧ ¬ s.reg regH ∣ s.reg regP - 1) ∧
      (t.vstatus.hf2 = true ↔ 2 ≤ s.reg regP ∧
        ∃ x, IsInverse (s.reg regH) (s.reg regP) x ∧ ¬ x ∣ s.reg regP - 1))

/-- 41_validator.md rule R73: VALID is 1 exactly when every group check holds and, with D = 1, every Damgård check. -/
def Obligations.ValidExactlyWhenEveryCheckHolds : Prop :=
  ∀ (d : Bool) (s : State), ∃ t, exec (.validate d) s = .next t ∧
    (t.vstatus.valid = true ↔ s.GroupChecksHold ∧ (d = true → s.DamgardChecksHold))

/-- 41_validator.md rule R74: when VALIDATE says VALID and Q is really prime, G mod P = G is not 1 and G^Q is 1 mod P, G
has order exactly Q, the search size of DLOG is at most Q, and the baby steps are distinct. -/
def Obligations.ValidGivesAGeneratorOfOrderQ : Prop :=
  ∀ (d : Bool) (s t : State) (m : Int), exec (.validate d) s = .next t → t.vstatus.valid = true →
    (s.reg regQ).toNat.Prime → IsSearchSize (s.reg regL) (s.reg regB) m →
    s.reg regG % s.reg regP = s.reg regG ∧ s.reg regG ≠ 1 ∧
    s.reg regG ^ (s.reg regQ).toNat % s.reg regP = 1 ∧
    orderOf ((s.reg regG : Int) : ZMod (s.reg regP).toNat) = (s.reg regQ).toNat ∧ m ≤ s.reg regQ ∧
    ∀ i j : Nat, (i : Int) < m → (j : Int) < m →
      s.reg regG ^ i % s.reg regP = s.reg regG ^ j % s.reg regP → i = j

/-- 41_validator.md rule R75: DERIVEH writes H = G^r (signed) to R3, reports the checks of that H and of r, clears VALID
and keeps VSTATUS[10:1]. -/
def Obligations.DerivehWritesAndChecksH : Prop :=
  ∀ (ra : Reg) (s : State), s.Ready → 2 ≤ s.reg regP →
    (0 ≤ s.reg ra ∨ Invertible (s.reg regG) (s.reg regP)) →
    ∃ t h, exec (.deriveh ra) s = .next t ∧ IsSignedPower (s.reg regG) (s.reg ra) (s.reg regP) h ∧
      t.reg regH = h ∧ s.OtherRegsKept t regH ∧ s.Succeeded t ∧ s.SameOutside t ∧
      t.vstatus.hrng = true ∧ (t.vstatus.hne1 = true ↔ h ≠ 1) ∧
      (t.vstatus.hord = true ↔ 0 ≤ s.reg regQ ∧ h ^ (s.reg regQ).toNat % s.reg regP = 1) ∧
      (t.vstatus.hf1 = true ↔ h ≠ 0 ∧ ¬ h ∣ s.reg regP - 1) ∧
      (t.vstatus.hf2 = true ↔ ∃ x, IsInverse h (s.reg regP) x ∧ ¬ x ∣ s.reg regP - 1) ∧
      (t.vstatus.rrng = true ↔ 2 ≤ s.reg ra ∧ s.reg ra < s.reg regQ) ∧
      (t.vstatus.hok = true ↔ t.vstatus.hf1 = true ∧ t.vstatus.hf2 = true) ∧
      t.vstatus = { s.vstatus with
        valid := false
        hrng := t.vstatus.hrng
        hne1 := t.vstatus.hne1
        hord := t.vstatus.hord
        hf1 := t.vstatus.hf1
        hf2 := t.vstatus.hf2
        rrng := t.vstatus.rrng
        hok := t.vstatus.hok }

/-- 42_dlog.md rules R82 to R84, positive branch: DLOG returns the least exponent of [0, E] whose power of G is the
target, with either value of NEG; EXCEEDS says it is above L*B*B. -/
def Obligations.DlogReturnsTheLeastPositiveHit : Prop :=
  ∀ (neg : Bool) (rd ra : Reg) (s : State) (m : Int) (e : Nat), s.Ready → s.DlogSearches m →
    IsLeastHit (s.reg regP) (s.reg regG) m (s.reg ra % s.reg regP) e →
    ∃ t, exec (.dlog neg rd ra) s = .next t ∧
      s.FoundOnly t rd e false (s.reg regL * s.reg regB * s.reg regB < e)

/-- 42_dlog.md rules R82 to R84, negative branch: with NEG = 1 and no positive hit, DLOG returns minus the least exponent
of the inverse of the target, which is at least 1. -/
def Obligations.DlogReturnsTheLeastNegativeHit : Prop :=
  ∀ (rd ra : Reg) (s : State) (m x : Int) (e : Nat), s.Ready → s.DlogSearches m →
    HasNoHit (s.reg regP) (s.reg regG) m (s.reg ra % s.reg regP) → IsInverse (s.reg ra) (s.reg regP) x →
    IsLeastHit (s.reg regP) (s.reg regG) m x e →
    1 ≤ e ∧ ∃ t, exec (.dlog true rd ra) s = .next t ∧
      s.FoundOnly t rd (-e) true (s.reg regL * s.reg regB * s.reg regB < e)

/-- 42_dlog.md rule R82 and 60_exceptions.md rule R103: every way DLOG fails, in the order of its checks; rd and VSTATUS
are unchanged. -/
def Obligations.DlogFailsInTheOrderOfItsChecks : Prop :=
  ∀ (neg : Bool) (rd ra : Reg) (s : State) (m : Int),
    (s.reg regP < 2 ∨ s.reg regL < 1 ∨ s.reg regB < 1 →
      ∃ t, exec (.dlog neg rd ra) s = .next t ∧ s.FailedWith t .param) ∧
    (2 ≤ s.reg regP → 1 ≤ s.reg regL → 1 ≤ s.reg regB → IsSearchSize (s.reg regL) (s.reg regB) m →
      (s.cfg.tableEntries < m → ∃ t, exec (.dlog neg rd ra) s = .next t ∧ s.FailedWith t .table) ∧
      (m ≤ s.cfg.tableEntries → ¬ Invertible (s.reg regG) (s.reg regP) →
        ∃ t, exec (.dlog neg rd ra) s = .next t ∧ s.FailedWith t .noInv)) ∧
    (s.DlogSearches m → HasNoHit (s.reg regP) (s.reg regG) m (s.reg ra % s.reg regP) →
      (∃ t, exec (.dlog false rd ra) s = .next t ∧ s.FailedWith t .notFound) ∧
      (¬ Invertible (s.reg ra) (s.reg regP) → ∃ t, exec (.dlog true rd ra) s = .next t ∧ s.FailedWith t .noInv) ∧
      (∀ x, IsInverse (s.reg ra) (s.reg regP) x → HasNoHit (s.reg regP) (s.reg regG) m x →
        ∃ t, exec (.dlog true rd ra) s = .next t ∧ s.FailedWith t .notFound))

/-- 42_dlog.md rule R85, case 1: when the order of G is above bound + E, DLOG with NEG = 1 returns the true exponent of
a target G^e with |e| <= bound, with EXCEEDS = 0. -/
def Obligations.DlogReturnsTheTrueExponent : Prop :=
  ∀ (rd ra : Reg) (s : State) (m e : Int), s.Ready → s.DlogSearches m →
    s.reg regL * s.reg regB * s.reg regB + (m * (m + 1) - 1) <
      orderOf ((s.reg regG : Int) : ZMod (s.reg regP).toNat) →
    IsSignedPower (s.reg regG) e (s.reg regP) (s.reg ra % s.reg regP) →
    -(s.reg regL * s.reg regB * s.reg regB) ≤ e → e ≤ s.reg regL * s.reg regB * s.reg regB →
    ∃ t, exec (.dlog true rd ra) s = .next t ∧ s.FoundOnly t rd e (decide (e < 0)) False

/-- 42_dlog.md rule R85, case 2: when the order d of G is only at least 2*bound + 1, DLOG with NEG = 1 returns e with
EXCEEDS = 0, or d + e with e < 0 and EXCEEDS = 1; so EXCEEDS = 0 gives the true exponent. -/
def Obligations.DlogUnderThePreconditionFlagsTheWrap : Prop :=
  ∀ (rd ra : Reg) (s : State) (m e : Int), s.Ready → s.DlogSearches m →
    2 * (s.reg regL * s.reg regB * s.reg regB) + 1 ≤ orderOf ((s.reg regG : Int) : ZMod (s.reg regP).toNat) →
    IsSignedPower (s.reg regG) e (s.reg regP) (s.reg ra % s.reg regP) →
    -(s.reg regL * s.reg regB * s.reg regB) ≤ e → e ≤ s.reg regL * s.reg regB * s.reg regB →
    ∃ t, exec (.dlog true rd ra) s = .next t ∧
      (s.FoundOnly t rd e (decide (e < 0)) False ∨
        (e < 0 ∧
          s.FoundOnly t rd (orderOf ((s.reg regG : Int) : ZMod (s.reg regP).toNat) + e) false True))

/-- 42_dlog.md rule R85, case 3: when G has an order of full size, at least 2^1022 and at least twice the bound, every
search that the table can hold is exact: DLOG with NEG = 1 returns the true exponent, with EXCEEDS = 0. -/
def Obligations.DlogIsExactForFullSizeGroups : Prop :=
  ∀ (rd ra : Reg) (s : State) (m e : Int), s.Ready → s.DlogSearches m →
    2 ^ 1022 ≤ orderOf ((s.reg regG : Int) : ZMod (s.reg regP).toNat) →
    2 * (s.reg regL * s.reg regB * s.reg regB) ≤ orderOf ((s.reg regG : Int) : ZMod (s.reg regP).toNat) →
    IsSignedPower (s.reg regG) e (s.reg regP) (s.reg ra % s.reg regP) →
    -(s.reg regL * s.reg regB * s.reg regB) ≤ e → e ≤ s.reg regL * s.reg regB * s.reg regB →
    ∃ t, exec (.dlog true rd ra) s = .next t ∧ s.FoundOnly t rd e (decide (e < 0)) False

/-- 20_memory.md rule R43: a read of any offset, at any time, leaves the block as it was; the reading host gets one
value. -/
def Obligations.ReadsHaveNoSideEffect : Prop :=
  ∀ (s : State) (a : Access) (rest : List Event), a.Accepted s.cfg → a.kind = .read →
    s.NextIs (.access a) rest →
    ∃ t v, step s = .next t ∧ s.SameBlock t ∧ t.schedule = rest ∧ t.replies = ⟨a.host, a.addr, v⟩ :: s.replies

/-- 20_memory.md rules R37 and R38 with BUSY = 0: what a read of each place returns. -/
def Obligations.IdleReadsReturnTheRegisters : Prop :=
  ∀ (s : State) (host : Nat) (rest : List Event), s.cfg.Ok → s.status.busy = false →
    let reads := fun (off : Nat) (v : Word) =>
      ∃ t, step (s.setSchedule (readEvent s.cfg host off :: rest)) = .next t ∧ s.SameBlock t ∧
        t.replies = ⟨host, s.cfg.base + off, v⟩ :: s.replies
    reads 0x0000 0x474F4645 ∧ reads 0x0004 (BitVec.ofNat 32 s.cfg.nw) ∧
    reads 0x0008 (BitVec.ofNat 32 s.cfg.tableEntries) ∧ reads 0x000C s.ctrl.toWord ∧
    reads 0x0010 s.status.toWord ∧ reads 0x0014 s.cmd ∧ reads 0x0018 s.vstatus.toWord ∧
    ∀ (k : Reg) (w : Nat), w < s.cfg.nw →
      reads (0x1000 + 0x400 * k.val + 4 * w) ((BitVec.ofInt (32 * s.cfg.nw) (s.reg k)).extractLsb' (32 * w) 32)

/-- 10_state.md rules R26, R27 and R29: the bits of the words software reads of CTRL, STATUS and VSTATUS; every reserved
bit reads 0. -/
def Obligations.StatusWordsHaveTheSpecsBits : Prop :=
  (∀ (c : Ctrl) (n : Nat), n < 32 → c.toWord.getLsbD n = [c.ie].getD n false) ∧
  (∀ (t : Status) (n : Nat), n < 32 → t.toWord.getLsbD n =
    ([t.busy, t.done, t.err, t.found, t.neghit, t.exceeds, t.ovr, t.irqp] ++
      (match t.ecode with
        | none => [false, false, false, false]
        | some .illegal => [true, false, false, false]
        | some .param => [false, true, false, false]
        | some .noInv => [true, true, false, false]
        | some .notFound => [false, false, true, false]
        | some .table => [true, false, true, false])).getD n false) ∧
  (∀ (v : VStatus) (n : Nat), n < 32 → v.toWord.getLsbD n =
    [v.valid, v.safe, v.pprime, v.qprime, v.grng, v.gne1, v.gord, v.lpos, v.bpos, v.precond, v.dmode, v.hrng,
      v.hne1, v.hord, v.hf1, v.hf2, v.rrng, v.hok].getD n false)

/-- 20_memory.md rule R38 with BUSY = 0: a write of an operand word replaces that word and no other, clears VALID when
k <= 5, and changes nothing else. -/
def Obligations.IdleOperandWriteReplacesOneWord : Prop :=
  ∀ (s : State) (host w : Nat) (k : Reg) (v : Word) (rest : List Event), s.cfg.Ok → s.status.busy = false →
    w < s.cfg.nw →
    ∃ t, step (s.setSchedule (writeEvent s.cfg host (0x1000 + 0x400 * k.val + 4 * w) v :: rest)) = .next t ∧
      operandWord t.cfg (t.reg k) w = v ∧
      (∀ w', w' < s.cfg.nw → w' ≠ w → operandWord t.cfg (t.reg k) w' = operandWord s.cfg (s.reg k) w') ∧
      InRange t.cfg (t.reg k) ∧ s.OtherRegsKept t k ∧ s.ValidAfterWrite t k ∧ t.cfg = s.cfg ∧ t.ctrl = s.ctrl ∧
      t.status = s.status ∧ t.cmd = s.cmd ∧ t.schedule = rest ∧ t.replies = s.replies

/-- 20_memory.md rule R44: a write to CMD when BUSY = 0 issues the word, legal or not. -/
def Obligations.IdleCmdWriteIssues : Prop :=
  ∀ (s : State) (host : Nat) (v : Word) (rest : List Event), s.status.busy = false →
    ∃ t, step (s.setSchedule (writeEvent s.cfg host 0x0014 v :: rest)) = .next t ∧
      t.cmd = v ∧ t.status.busy = true ∧ t.status.done = false ∧ t.status.err = false ∧ t.status.ecode = none ∧
      t.status.found = false ∧ t.status.neghit = false ∧ t.status.exceeds = false ∧
      t.status.ovr = s.status.ovr ∧ t.status.irqp = s.status.irqp ∧ (∀ i : Reg, t.reg i = s.reg i) ∧
      t.vstatus = s.vstatus ∧ t.ctrl = s.ctrl ∧ t.cfg = s.cfg ∧ t.schedule = rest

/-- 20_memory.md rule R45, while BUSY = 1: writes to CMD and to operand words are ignored and set OVR; reads of operand
words and of VSTATUS return a draw, a fresh one each time; the latch and the other registers read as when idle. -/
def Obligations.BusyAccessesAreIgnoredOrDrawn : Prop :=
  ∀ (s : State) (host : Nat) (k : Reg) (w : Nat) (v : Word) (rest : List Event), s.cfg.Ok → s.status.busy = true →
    w < s.cfg.nw →
    let opw := 0x1000 + 0x400 * k.val + 4 * w
    (∀ off ∈ [0x0014, opw],
      ∃ t, step (s.setSchedule (writeEvent s.cfg host off v :: rest)) = .next t ∧
        t = { s with schedule := rest, status := { s.status with ovr := true } }) ∧
    (∀ off ∈ [0x0018, opw],
      step (s.setSchedule (readEvent s.cfg host off :: rest)) =
        .next { s with schedule := rest, draws := s.draws + 1,
                       replies := ⟨host, s.cfg.base + off, Config.draw s.draws⟩ :: s.replies }) ∧
    (∀ r ∈ [(0x0000, 0x474F4645#32), (0x0004, BitVec.ofNat 32 s.cfg.nw),
        (0x0008, BitVec.ofNat 32 s.cfg.tableEntries), (0x000C, s.ctrl.toWord), (0x0010, s.status.toWord),
        (0x0014, s.cmd)],
      step (s.setSchedule (readEvent s.cfg host r.1 :: rest)) =
        .next { s with schedule := rest, replies := ⟨host, s.cfg.base + r.1, r.2⟩ :: s.replies })

/-- 10_state.md rules R24 to R27 and R29: writes to CTRL and STATUS take effect whether or not BUSY = 1 and never set
OVR; the read-only registers ignore writes. -/
def Obligations.ControlWritesTakeEffectAnyTime : Prop :=
  ∀ (s : State) (host : Nat) (v : Word) (rest : List Event),
    step (s.setSchedule (writeEvent s.cfg host 0x000C v :: rest)) =
      .next { s with schedule := rest, ctrl := ⟨v.getLsbD 0⟩ } ∧
    step (s.setSchedule (writeEvent s.cfg host 0x0010 v :: rest)) =
      .next { s with schedule := rest,
                     status := { s.status with ovr := s.status.ovr && !v.getLsbD 6,
                                               irqp := s.status.irqp && !v.getLsbD 7 } } ∧
    ∀ off ∈ [0x0000, 0x0004, 0x0008, 0x0018],
      step (s.setSchedule (writeEvent s.cfg host off v :: rest)) = .next { s with schedule := rest }

/-- 20_memory.md rule R40: an access in the window of another width than 32 bits or at a misaligned offset is a bus error
to the host, a host fault in the model, read or write, busy or idle. -/
def Obligations.OtherWidthsAndMisalignedAccessesFault : Prop :=
  ∀ (s : State) (a : Access) (rest : List Event), s.cfg.base ≤ a.addr → a.addr < s.cfg.base + 0x8000 →
    a.bytes ≠ 4 ∨ (a.addr - s.cfg.base) % 4 ≠ 0 → s.NextIs (.access a) rest →
    step s = .fault (.busError a)

/-- 20_memory.md rule R41 on the offsets rule R37 reserves: an aligned access reads 0 and its write is ignored, busy or
not, and OVR is not set. -/
def Obligations.ReservedOffsetsReadZeroAndIgnoreWrites : Prop :=
  ∀ (s : State) (host off : Nat) (v : Word) (rest : List Event), off % 4 = 0 →
    ((0x001C ≤ off ∧ off < 0x1000) ∨ (0x5000 ≤ off ∧ off < 0x8000) ∨
      ∃ (k : Reg) (w : Nat), s.cfg.nw ≤ w ∧ w < 256 ∧ off = 0x1000 + 0x400 * k.val + 4 * w) →
    step (s.setSchedule (readEvent s.cfg host off :: rest)) =
      .next { s with schedule := rest, replies := ⟨host, s.cfg.base + off, 0⟩ :: s.replies } ∧
    step (s.setSchedule (writeEvent s.cfg host off v :: rest)) = .next { s with schedule := rest }

/-- 20_memory.md rule R46 and 30_encoding.md rule R64: `setreg Rk, v` while idle leaves exactly v in Rk, whatever it held
before, and changes no other register. -/
def Obligations.SetregLeavesTheValue : Prop :=
  ∀ (s : State) (host : Nat) (k : Reg) (v : Int) (rest : List Event), s.cfg.Ok → s.status.busy = false →
    InRange s.cfg v →
    ∃ t, run s.cfg.nw (s.setSchedule (setregEvents s.cfg host k v ++ rest)) = .next t ∧
      t.reg k = v ∧ s.OtherRegsKept t k ∧ s.ValidAfterWrite t k ∧ t.status = s.status ∧ t.ctrl = s.ctrl ∧
      t.cmd = s.cmd ∧ t.schedule = rest ∧ t.replies = s.replies

/-- 30_encoding.md rule R64 and 20_memory.md rule R38: `getreg Rk` while idle forms exactly the value of Rk from the words
it reads, and changes nothing in the block. -/
def Obligations.GetregFormsTheValue : Prop :=
  ∀ (s : State) (host : Nat) (k : Reg) (rest : List Event), s.Ready → s.status.busy = false →
    ∃ t, run s.cfg.nw (s.setSchedule (getregEvents s.cfg host k ++ rest)) = .next t ∧ s.SameBlock t ∧
      t.schedule = rest ∧ t.replies.drop s.cfg.nw = s.replies ∧
      wordsToInt s.cfg ((t.replies.take s.cfg.nw).reverse.map (·.value)) = s.reg k

/-- 30_encoding.md rule R64: `issue <command>` while idle, with the completion after n polls that find BUSY = 1, returns the
STATUS word the command completed with, s[0] = 0 and s[1] = DONE = 1, and leaves the block as the command leaves it. -/
def Obligations.IssueReturnsTheCompletionStatus : Prop :=
  ∀ (s : State) (host : Nat) (i : Instr) (n : Nat), s.status.busy = false → i.wellFormed = true →
    ∃ t u, exec i (s.issue (encode i)) = .next t ∧
      issueCommand host i (List.replicate n [] ++ [[.complete]]) s = some (t.status.toWord, u) ∧ t.SameBlock u ∧
      t.status.toWord.getLsbD 0 = false ∧ t.status.toWord.getLsbD 1 = true ∧
      issueCommand host i (List.replicate n []) s = none

/-- 60_exceptions.md rule R108 and 20_memory.md rule R52: which bus master performs an access makes no difference to the
block, to the value read or to whether it faults. -/
def Obligations.EveryMasterHasTheSameEffect : Prop :=
  ∀ (s : State) (a : Access) (other : Nat),
    (∀ t, access s a = .next t → ∃ t', access s { a with host := other } = .next t' ∧ t.SameBlock t' ∧
      t'.schedule = t.schedule ∧ t'.draws = t.draws ∧
      t'.replies.map (fun r => (r.addr, r.value)) = t.replies.map (fun r => (r.addr, r.value))) ∧
    ((∃ f, access s a = .fault f) ↔ ∃ f, access s { a with host := other } = .fault f)

/-- 20_memory.md rule R49: of two writes to CMD while idle, by any hosts, the first issues and the second is ignored and
sets OVR. -/
def Obligations.FirstCmdWriteIssuesTheSecondOverruns : Prop :=
  ∀ (s : State) (h1 h2 : Nat) (w1 w2 : Word) (rest : List Event), s.status.busy = false →
    ∃ t, run 2
        (s.setSchedule (writeEvent s.cfg h1 0x0014 w1 :: writeEvent s.cfg h2 0x0014 w2 :: rest)) = .next t ∧
      t.cmd = w1 ∧ t.status.busy = true ∧ t.status.ovr = true ∧ (∀ i : Reg, t.reg i = s.reg i) ∧ t.schedule = rest

/-- 60_exceptions.md rule R105 and 10_state.md rule R33: a completion raises irq exactly when IE = 1; acknowledging
IRQP drops it, without touching IE; setting IE raises it for a completion that happened while masked; issue leaves it. -/
def Obligations.InterruptFollowsCompletionAndEnable : Prop :=
  (∀ (i : Instr) (s : State), ∃ t, exec i s = .next t ∧ t.status.irqp = true ∧ (t.irq = true ↔ s.ctrl.ie = true)) ∧
  (∀ (s : State) (host : Nat) (v : Word) (rest : List Event), v.getLsbD 7 = true →
    ∃ t, step (s.setSchedule (writeEvent s.cfg host 0x0010 v :: rest)) = .next t ∧ t.irq = false ∧ t.ctrl = s.ctrl) ∧
  (∀ (s : State) (host : Nat) (v : Word) (rest : List Event), v.getLsbD 0 = true →
    ∃ t, step (s.setSchedule (writeEvent s.cfg host 0x000C v :: rest)) = .next t ∧
      (t.irq = true ↔ s.status.irqp = true)) ∧
  (∀ (s : State) (host : Nat) (v : Word) (rest : List Event), s.status.busy = false →
    ∃ t, step (s.setSchedule (writeEvent s.cfg host 0x0014 v :: rest)) = .next t ∧ t.irq = s.irq)

/-- 10_state.md rule R25: the configuration, and with it what CFG0 and CFG1 read, never changes. -/
def Obligations.ConfigurationNeverChanges : Prop :=
  ∀ s t : State, step s = .next t →
    t.cfg = s.cfg ∧ t.windowWord 0x0004 = s.windowWord 0x0004 ∧ t.windowWord 0x0008 = s.windowWord 0x0008

/-- 10_state.md rules R29 and R30, a whole-machine rule: only the completion of a VALIDATE can set VALID. The step that does
is the engine's: its event is the completion, or no event is left (log entry 2), and it ends the command. -/
def Obligations.OnlyValidateSetsValid : Prop :=
  ∀ s t : State, step s = .next t → s.vstatus.valid = false → t.vstatus.valid = true →
    s.status.busy = true ∧ (∃ d, decode s.cmd = some (.validate d)) ∧
    (s.schedule = [] ∨ s.schedule.head? = some .complete) ∧ t.status.busy = false ∧ t.status.done = true

/-- 70_reset_and_hazards.md rule R117: OVR, once set, stays 1 until a host writes 1 to STATUS bit 6 or reset; and OVR
becomes 1 only when a host write, made while BUSY = 1, was dropped: nothing else changed. -/
def Obligations.OverrunIsStickyAndMeansADroppedWrite : Prop :=
  ∀ s t : State, step s = .next t →
    (s.status.ovr = true → (t.status.ovr = false ↔
      s.schedule.head? = some .reset ∨
      ∃ host v, s.schedule.head? = some (writeEvent s.cfg host 0x0010 v) ∧ v.getLsbD 6 = true)) ∧
    (s.status.ovr = false → t.status.ovr = true →
      s.status.busy = true ∧ t = { s with schedule := s.schedule.tail, status := { s.status with ovr := true } } ∧
      ∃ (a : Access) (v : Word), s.schedule.head? = some (.access a) ∧ a.kind = .write v)

/-- 20_memory.md rules R45, R47 and R50: while a command runs, no host access changes the latch, an operand register,
VSTATUS or the outcome fields, or ends the command. -/
def Obligations.RunningCommandIsShieldedFromHosts : Prop :=
  ∀ (s t : State) (a : Access) (rest : List Event), s.status.busy = true → s.NextIs (.access a) rest →
    step s = .next t →
    t.cmd = s.cmd ∧ (∀ i : Reg, t.reg i = s.reg i) ∧ t.vstatus = s.vstatus ∧ t.status.busy = true ∧
      t.status.done = s.status.done ∧ t.status.err = s.status.err ∧ t.status.ecode = s.status.ecode ∧
      t.status.found = s.status.found ∧ t.status.neghit = s.status.neghit ∧ t.status.exceeds = s.status.exceeds

/-- The invariant of the block holds at reset, VALID describes the registers there, and a run may start from it (10_state.md
rule R35, 70_reset_and_hazards.md rule R124; the configuration is the reference one of rules R6 and R7). -/
def Obligations.ResetMeetsTheInvariants : Prop :=
  State.reset.Inv ∧ State.reset.ValidDescribesRegisters ∧ State.reset.LaunchState

/-- Every step keeps the invariant of the block: legal parameters, every operand register in range (10_state.md rules R19
and R22), and a coherent STATUS (rules R27, R44, R83, R99 and R100). -/
def Obligations.EveryStepKeepsTheInvariant : Prop :=
  ∀ s t : State, s.Inv → step s = .next t → t.Inv

/-- Every step keeps it true that VALID = 1 describes the register values of now (10_state.md rules R29 and R30,
70_reset_and_hazards.md rule R119). -/
def Obligations.EveryStepKeepsValidTrue : Prop :=
  ∀ s t : State, s.ValidDescribesRegisters → step s = .next t → t.ValidDescribesRegisters
end

