-- ==== Sys2Proof/Laws/Arith.lean ====
section
/-! SUPPORT. What the arithmetic of Machine/Arith.lean computes: one lemma for each function, in the words of 00_scope.md
rules R12 to R14 and 43_modexp.md rule R89. -/

namespace Sys2Proof.Machine

/-- The bits built so far stay a root from below, and n lies under the root with one more unit of the last bit. -/
theorem sqrtBits_spec (n : Nat) : ∀ k s, s * s ≤ n → n < (s + 2 ^ k) * (s + 2 ^ k) →
    sqrtBits n k s * sqrtBits n k s ≤ n ∧ n < (sqrtBits n k s + 1) * (sqrtBits n k s + 1)
  | 0, s, h, h' => by simpa [sqrtBits] using ⟨h, h'⟩
  | k + 1, s, h, h' => by
    unfold sqrtBits
    split
    · rename_i hle
      refine sqrtBits_spec n k _ hle ?_
      rwa [Nat.pow_succ, Nat.mul_two, ← Nat.add_assoc] at h'
    · rename_i hlt
      exact sqrtBits_spec n k _ h (by omega)

/-- The floor square root lies just below or at the root. -/
theorem floorSqrt_spec (n : Nat) :
    floorSqrt n * floorSqrt n ≤ n ∧ n < (floorSqrt n + 1) * (floorSqrt n + 1) := by
  refine sqrtBits_spec n _ 0 (by simp) ?_
  have h : n < 2 ^ (n.log2 + 1) := Nat.lt_log2_self
  refine lt_of_lt_of_le h ?_
  rw [Nat.zero_add, ← pow_add]
  exact Nat.pow_le_pow_right (by decide) (by omega)

/-- csqrt(n) is the least s >= 0 with s*s >= n (rule R12). -/
theorem csqrt_spec {n : Int} (hn : 0 ≤ n) :
    0 ≤ csqrt n ∧ n ≤ csqrt n * csqrt n ∧ ∀ s : Int, 0 ≤ s → n ≤ s * s → csqrt n ≤ s := by
  obtain ⟨a, rfl⟩ := Int.eq_ofNat_of_zero_le hn
  obtain ⟨hlo, hhi⟩ := floorSqrt_spec a
  unfold csqrt
  simp only [Int.toNat_natCast]
  split
  · rename_i heq
    refine ⟨by positivity, by exact_mod_cast heq.ge, fun s hs h => ?_⟩
    by_contra hlt
    push Not at hlt
    have : s * s < (floorSqrt a : Int) * floorSqrt a := by nlinarith
    have : ((floorSqrt a * floorSqrt a : Nat) : Int) = a := by exact_mod_cast heq
    push_cast at this
    omega
  · rename_i hne
    refine ⟨by positivity, by exact_mod_cast hhi.le, fun s hs h => ?_⟩
    by_contra hlt
    push Not at hlt
    have hs' : s ≤ floorSqrt a := by omega
    have h2 : s * s ≤ (floorSqrt a : Int) * floorSqrt a := by nlinarith
    have h3 : (floorSqrt a : Int) * floorSqrt a ≤ a := by exact_mod_cast hlo
    exact hne (by exact_mod_cast le_antisymm h3 (le_trans h h2))

/-- The square-and-multiply loop is the power, when `fuel` bits hold the exponent. -/
theorem powBits_spec (p : Nat) : ∀ fuel b e acc, e < 2 ^ fuel → acc % p = acc →
    powBits p fuel b e acc = acc * b ^ e % p
  | 0, b, e, acc, he, ha => by
    obtain rfl : e = 0 := by simpa using he
    simpa [powBits] using ha.symm
  | fuel + 1, b, e, acc, he, ha => by
    have he' : e / 2 < 2 ^ fuel := by rw [Nat.pow_succ] at he; omega
    unfold powBits
    rw [powBits_spec p fuel _ _ _ he' (by split <;> simp [ha])]
    have hpow : (b * b % p) ^ (e / 2) ≡ b ^ (2 * (e / 2)) [MOD p] := by
      rw [pow_mul, pow_two]; exact (Nat.mod_modEq _ _).pow _
    rcases Nat.mod_two_eq_zero_or_one e with h | h
    · have : 2 * (e / 2) = e := by omega
      rw [this] at hpow
      have h2 : acc * (b * b % p) ^ (e / 2) % p = acc * b ^ e % p := hpow.mul_left acc
      simpa [h] using h2
    · have : 2 * (e / 2) + 1 = e := by omega
      simp only [h, if_true]
      have h2 := (Nat.mod_modEq (acc * b) p).mul hpow
      rw [mul_assoc, ← pow_succ', this] at h2
      exact h2

/-- PowMod(b, e, p) = (b mod p)^e mod p (rule R14). -/
theorem powMod_eq {b e p : Int} (hp : 2 ≤ p) : powMod b e p = (b % p) ^ e.toNat % p := by
  obtain ⟨n, rfl⟩ := Int.eq_ofNat_of_zero_le (show 0 ≤ p by omega)
  obtain ⟨a, ha⟩ := Int.eq_ofNat_of_zero_le (Int.emod_nonneg b (show (n : Int) ≠ 0 by omega))
  unfold powMod
  rw [ha, Int.toNat_natCast, Int.toNat_natCast,
    powBits_spec n _ _ _ _ Nat.lt_log2_self (Nat.mod_eq_of_lt (by omega))]
  push_cast
  simp

/-- PowMod reduces its base first or not, with the same result (rules R11 and R14). -/
theorem powMod_eq' {b e p : Int} (hp : 2 ≤ p) : powMod b e p = b ^ e.toNat % p := by
  rw [powMod_eq hp]
  exact Int.ModEq.pow _ (Int.mod_modEq b p)

/-- PowMod lies in [0, p) (rule R14). -/
theorem powMod_range {b e p : Int} (hp : 2 ≤ p) : 0 ≤ powMod b e p ∧ powMod b e p < p := by
  rw [powMod_eq hp]
  exact ⟨Int.emod_nonneg _ (by omega), Int.emod_lt_of_pos _ (by omega)⟩

/-- The extended Euclid loop returns, mod p, a coefficient of a for the gcd of its two numbers. -/
theorem bezout_spec (a p : Int) : ∀ fuel (r r' : Nat) (s s' : Int), r' < fuel →
    a * s ≡ r [ZMOD p] → a * s' ≡ r' [ZMOD p] →
    a * bezout fuel r r' s s' ≡ (Nat.gcd r r' : Nat) [ZMOD p]
  | 0, _, _, _, _, h, _, _ => absurd h (Nat.not_lt_zero _)
  | fuel + 1, r, r', s, s', h, h1, h2 => by
    unfold bezout
    split
    · rename_i h0; subst h0; simpa using h1
    · rename_i h0
      have hlt : r % r' < r' := Nat.mod_lt _ (Nat.pos_of_ne_zero h0)
      rw [Nat.gcd_comm, Nat.gcd_rec r' r, Nat.gcd_comm]
      refine bezout_spec a p fuel r' (r % r') s' _ (by omega) h2 ?_
      have hr : ((r % r' : Nat) : Int) = r - (r / r' : Nat) * r' := by
        have := Nat.mod_add_div r r'
        have h3 : ((r % r' : Nat) : Int) + (r' : Int) * ((r / r' : Nat) : Int) = r := by exact_mod_cast this
        linarith
      rw [hr, mul_sub]
      refine h1.sub ?_
      have := h2.mul_left ((r / r' : Nat) : Int)
      calc a * (((r / r' : Nat) : Int) * s') = ((r / r' : Nat) : Int) * (a * s') := by ring
        _ ≡ _ [ZMOD p] := this

/-- HasInv(a, p) says that a and p are coprime (rule R13). -/
theorem hasInv_iff {a p : Int} : hasInv a p = true ↔ Int.gcd (a % p) p = 1 := by simp [hasInv]

/-- Inv(a, p) is the x with 1 <= x < p and (a*x) mod p = 1 (rule R13). -/
theorem inv_spec {a p : Int} (hp : 2 ≤ p) (h : hasInv a p = true) :
    1 ≤ inv a p ∧ inv a p < p ∧ a * inv a p % p = 1 := by
  obtain ⟨n, rfl⟩ := Int.eq_ofNat_of_zero_le (show 0 ≤ p by omega)
  obtain ⟨r, hr⟩ := Int.eq_ofNat_of_zero_le (Int.emod_nonneg a (show (n : Int) ≠ 0 by omega))
  have hg : Nat.gcd r n = 1 := by
    have := hasInv_iff.1 h
    rw [hr] at this
    simpa [Int.gcd] using this
  have key := bezout_spec a n (n + 1) r n 1 0 (by omega)
    (by rw [mul_one, ← hr]; exact (Int.mod_modEq a n).symm)
    (by rw [mul_zero]; exact (Int.modEq_zero_iff_dvd.2 dvd_rfl).symm)
  rw [hg] at key
  have hmul : a * inv a n % n = 1 := by
    unfold inv
    rw [hr, Int.toNat_natCast, Int.toNat_natCast]
    have h2 := (Int.mod_modEq (bezout (n + 1) r n 1 0) n).mul_left a
    have h3 : (1 : Int) % n = 1 := Int.emod_eq_of_lt (by omega) (by omega)
    have h4 := h2.trans key
    unfold Int.ModEq at h4
    rw [h4]
    simpa using h3
  have h0 : 0 ≤ inv a n := Int.emod_nonneg _ (by omega)
  have hne : inv a n ≠ 0 := fun e => by rw [e] at hmul; simp at hmul
  exact ⟨by omega, Int.emod_lt_of_pos _ (by omega), hmul⟩

/-- Two inverses in [1, p) of one value are equal (rule R13, "the unique x"). -/
theorem inverse_unique {a p x y : Int} (hx : 1 ≤ x ∧ x < p ∧ a * x % p = 1)
    (hy : 1 ≤ y ∧ y < p ∧ a * y % p = 1) : x = y := by
  have h1 : x ≡ y [ZMOD p] := by
    have e1 : x * (a * y) ≡ x * 1 [ZMOD p] := Int.ModEq.mul_left _ (by
      unfold Int.ModEq; rw [hy.2.2, Int.emod_eq_of_lt] <;> omega)
    have e2 : y * (a * x) ≡ y * 1 [ZMOD p] := Int.ModEq.mul_left _ (by
      unfold Int.ModEq; rw [hx.2.2, Int.emod_eq_of_lt] <;> omega)
    have e3 : x * (a * y) = y * (a * x) := by ring
    rw [e3] at e1
    simpa using e1.symm.trans e2
  have := h1
  unfold Int.ModEq at this
  rwa [Int.emod_eq_of_lt (by omega) hx.2.1, Int.emod_eq_of_lt (by omega) hy.2.1] at this

/-- A value with an inverse mod p is coprime to p (rule R13). -/
theorem hasInv_of_inverse {a p x : Int} (h : a * x % p = 1) : hasInv a p = true := by
  rw [hasInv_iff]
  have hd : ((Int.gcd (a % p) p : Nat) : Int) ∣ 1 := by
    have h1 : ((Int.gcd (a % p) p : Nat) : Int) ∣ p := Int.gcd_dvd_right ..
    have h2 : ((Int.gcd (a % p) p : Nat) : Int) ∣ a % p := Int.gcd_dvd_left ..
    have h3 : ((Int.gcd (a % p) p : Nat) : Int) ∣ a := by
      have := dvd_add (h1.mul_right (a / p)) h2
      rwa [Int.mul_ediv_add_emod] at this
    have h4 := dvd_sub (h3.mul_right x) (h1.mul_right (a * x / p))
    have h5 : a * x - p * (a * x / p) = 1 := by
      have := Int.mul_ediv_add_emod (a * x) p
      omega
    rwa [h5] at h4
  have := Int.natCast_dvd_natCast.1 (by simpa using hd : ((Int.gcd (a % p) p : Nat) : Int) ∣ ((1 : Nat) : Int))
  exact Nat.dvd_one.1 this

/-- HasInv of a power of positive exponent is HasInv of the base (rule R89). -/
theorem hasInv_powMod {b e p : Int} (hp : 2 ≤ p) (he : 1 ≤ e) : hasInv (powMod b e p) p = hasInv b p := by
  have hcop : ∀ a : Int, hasInv a p = true ↔ IsCoprime a p := fun a => by
    rw [hasInv_iff, ← Int.isCoprime_iff_gcd_eq_one]
    have : a % p = a + p * (-(a / p)) := by have := Int.mul_ediv_add_emod a p; linarith
    rw [this]
    exact IsCoprime.add_mul_left_left_iff
  rw [Bool.eq_iff_iff, hcop, hcop, powMod_eq' hp]
  have : b ^ e.toNat % p = b ^ e.toNat + p * (-(b ^ e.toNat / p)) := by
    have := Int.mul_ediv_add_emod (b ^ e.toNat) p; linarith
  rw [this, IsCoprime.add_mul_left_left_iff]
  exact IsCoprime.pow_left_iff (by omega)

/-- SModExp of a non-negative exponent is the power (rule R89). -/
theorem sModExp_nonneg {b e p : Int} (he : 0 ≤ e) : sModExp b e p = some (powMod b e p) := by
  simp [sModExp, he]

/-- SModExp of a negative exponent is the inverse of the power of -e, and exists exactly when the base has an inverse
(rule R89). -/
theorem sModExp_neg {b e p : Int} (hp : 2 ≤ p) (he : e < 0) :
    sModExp b e p = if hasInv b p = true then some (inv (powMod b (-e) p) p) else none := by
  unfold sModExp
  rw [if_neg (by omega)]
  simp only [hasInv_powMod hp (show 1 ≤ -e by omega)]

/-- Trial division from d on finds no divisor exactly when none from d up to n/2 divides. -/
theorem noDivisorFrom_spec (n : Nat) : ∀ fuel d, 2 ≤ d → n < d + fuel →
    (∀ k, 2 ≤ k → k < d → ¬ k ∣ n) →
    (noDivisorFrom n fuel d = true ↔ ∀ k, 2 ≤ k → k < n → ¬ k ∣ n)
  | 0, d, _, hf, hd => by
    simp only [noDivisorFrom, true_iff]
    exact fun k h2 hk => hd k h2 (by omega)
  | fuel + 1, d, h2, hf, hd => by
    unfold noDivisorFrom
    split
    · rename_i hlt
      simp only [true_iff]
      rintro k hk2 hkn ⟨c, hc⟩
      have hc2 : 2 ≤ c := by
        rcases c with - | - | c
        · omega
        · omega
        · omega
      rcases lt_or_ge k d with h | h
      · exact hd k hk2 h ⟨c, hc⟩
      · have hcd : c < d := by
          by_contra hge
          push Not at hge
          have := Nat.mul_le_mul h hge
          omega
        exact hd c hc2 hcd ⟨k, by rw [hc, Nat.mul_comm]⟩
    · rename_i hge
      split
      · rename_i hdiv
        simp only [Bool.false_eq_true, false_iff]
        intro h
        have hdn : d < n := by nlinarith
        exact h d h2 hdn (Nat.dvd_of_mod_eq_zero hdiv)
      · rename_i hdiv
        refine noDivisorFrom_spec n fuel (d + 1) (by omega) (by omega) fun k hk2 hk => ?_
        rcases Nat.lt_succ_iff_lt_or_eq.1 hk with h | rfl
        · exact hd k hk2 h
        · exact fun hdvd => hdiv (Nat.mod_eq_zero_of_dvd hdvd)

/-- The exact primality of the model is that of the library, from 2 on. -/
theorem isPrime_iff {n : Nat} (hn : 2 ≤ n) : isPrime n = true ↔ n.Prime := by
  unfold isPrime
  rw [noDivisorFrom_spec n n 2 (by omega) (by omega) (by omega), Nat.prime_def_lt]
  constructor
  · intro h
    refine ⟨hn, fun m hm hd => ?_⟩
    by_contra hne
    have : m ≠ 0 := fun e => by subst e; simp at hd; omega
    exact h m (by omega) hm hd
  · rintro ⟨-, h⟩ k hk2 hk hd
    have := h k hk hd
    omega

/-- What PrimeTest of a configuration accepts (rule R8). -/
theorem primeTest_iff {c : Config} {n : Int} :
    primeTest c n = true ↔ 2 ≤ n ∧ (n.toNat.Prime ∨ n ∈ c.composites) := by
  unfold primeTest
  split
  · simp only [Bool.false_eq_true, false_iff]
    omega
  · rw [Bool.or_eq_true, isPrime_iff (by omega), List.contains_iff_mem]
    exact ⟨fun h => ⟨by omega, h⟩, fun h => h.2⟩

end Sys2Proof.Machine
end

