-- ==== Sys2Proof/Laws/State.lean ====
section
/-! SUPPORT. One lemma per field per update of the state, true by `rfl`, and the reads of an operand register after each
update. -/

namespace Sys2Proof.Machine

section Fields
variable (s : State)
@[simp] theorem State.setReg_cfg (i : Reg) (v : Int) : (s.setReg i v).cfg = s.cfg := rfl
@[simp] theorem State.setReg_regs (i : Reg) (v : Int) : (s.setReg i v).regs = s.regs.set i (sext s.cfg (twos s.cfg v)) := rfl
@[simp] theorem State.setReg_ctrl (i : Reg) (v : Int) : (s.setReg i v).ctrl = s.ctrl := rfl
@[simp] theorem State.setReg_status (i : Reg) (v : Int) : (s.setReg i v).status = s.status := rfl
@[simp] theorem State.setReg_cmd (i : Reg) (v : Int) : (s.setReg i v).cmd = s.cmd := rfl
@[simp] theorem State.setReg_vstatus (i : Reg) (v : Int) : (s.setReg i v).vstatus = s.vstatus := rfl
@[simp] theorem State.setReg_schedule (i : Reg) (v : Int) : (s.setReg i v).schedule = s.schedule := rfl
@[simp] theorem State.setReg_draws (i : Reg) (v : Int) : (s.setReg i v).draws = s.draws := rfl
@[simp] theorem State.setReg_replies (i : Reg) (v : Int) : (s.setReg i v).replies = s.replies := rfl

@[simp] theorem State.setStatus_cfg (t : Status) : (s.setStatus t).cfg = s.cfg := rfl
@[simp] theorem State.setStatus_regs (t : Status) : (s.setStatus t).regs = s.regs := rfl
@[simp] theorem State.setStatus_ctrl (t : Status) : (s.setStatus t).ctrl = s.ctrl := rfl
@[simp] theorem State.setStatus_status (t : Status) : (s.setStatus t).status = t := rfl
@[simp] theorem State.setStatus_cmd (t : Status) : (s.setStatus t).cmd = s.cmd := rfl
@[simp] theorem State.setStatus_vstatus (t : Status) : (s.setStatus t).vstatus = s.vstatus := rfl
@[simp] theorem State.setStatus_schedule (t : Status) : (s.setStatus t).schedule = s.schedule := rfl
@[simp] theorem State.setStatus_draws (t : Status) : (s.setStatus t).draws = s.draws := rfl
@[simp] theorem State.setStatus_replies (t : Status) : (s.setStatus t).replies = s.replies := rfl
@[simp] theorem State.setStatus_reg (t : Status) (j : Reg) : (s.setStatus t).reg j = s.reg j := rfl

@[simp] theorem State.setVStatus_cfg (v : VStatus) : (s.setVStatus v).cfg = s.cfg := rfl
@[simp] theorem State.setVStatus_regs (v : VStatus) : (s.setVStatus v).regs = s.regs := rfl
@[simp] theorem State.setVStatus_ctrl (v : VStatus) : (s.setVStatus v).ctrl = s.ctrl := rfl
@[simp] theorem State.setVStatus_status (v : VStatus) : (s.setVStatus v).status = s.status := rfl
@[simp] theorem State.setVStatus_cmd (v : VStatus) : (s.setVStatus v).cmd = s.cmd := rfl
@[simp] theorem State.setVStatus_vstatus (v : VStatus) : (s.setVStatus v).vstatus = v := rfl
@[simp] theorem State.setVStatus_schedule (v : VStatus) : (s.setVStatus v).schedule = s.schedule := rfl
@[simp] theorem State.setVStatus_draws (v : VStatus) : (s.setVStatus v).draws = s.draws := rfl
@[simp] theorem State.setVStatus_replies (v : VStatus) : (s.setVStatus v).replies = s.replies := rfl
@[simp] theorem State.setVStatus_reg (v : VStatus) (j : Reg) : (s.setVStatus v).reg j = s.reg j := rfl

@[simp] theorem State.setCtrl_cfg (c : Ctrl) : (s.setCtrl c).cfg = s.cfg := rfl
@[simp] theorem State.setCtrl_regs (c : Ctrl) : (s.setCtrl c).regs = s.regs := rfl
@[simp] theorem State.setCtrl_ctrl (c : Ctrl) : (s.setCtrl c).ctrl = c := rfl
@[simp] theorem State.setCtrl_status (c : Ctrl) : (s.setCtrl c).status = s.status := rfl
@[simp] theorem State.setCtrl_cmd (c : Ctrl) : (s.setCtrl c).cmd = s.cmd := rfl
@[simp] theorem State.setCtrl_vstatus (c : Ctrl) : (s.setCtrl c).vstatus = s.vstatus := rfl
@[simp] theorem State.setCtrl_schedule (c : Ctrl) : (s.setCtrl c).schedule = s.schedule := rfl
@[simp] theorem State.setCtrl_draws (c : Ctrl) : (s.setCtrl c).draws = s.draws := rfl
@[simp] theorem State.setCtrl_replies (c : Ctrl) : (s.setCtrl c).replies = s.replies := rfl
@[simp] theorem State.setCtrl_reg (c : Ctrl) (j : Reg) : (s.setCtrl c).reg j = s.reg j := rfl

@[simp] theorem State.setCmd_cfg (w : Word) : (s.setCmd w).cfg = s.cfg := rfl
@[simp] theorem State.setCmd_regs (w : Word) : (s.setCmd w).regs = s.regs := rfl
@[simp] theorem State.setCmd_ctrl (w : Word) : (s.setCmd w).ctrl = s.ctrl := rfl
@[simp] theorem State.setCmd_status (w : Word) : (s.setCmd w).status = s.status := rfl
@[simp] theorem State.setCmd_cmd (w : Word) : (s.setCmd w).cmd = w := rfl
@[simp] theorem State.setCmd_vstatus (w : Word) : (s.setCmd w).vstatus = s.vstatus := rfl
@[simp] theorem State.setCmd_schedule (w : Word) : (s.setCmd w).schedule = s.schedule := rfl
@[simp] theorem State.setCmd_draws (w : Word) : (s.setCmd w).draws = s.draws := rfl
@[simp] theorem State.setCmd_replies (w : Word) : (s.setCmd w).replies = s.replies := rfl
@[simp] theorem State.setCmd_reg (w : Word) (j : Reg) : (s.setCmd w).reg j = s.reg j := rfl

@[simp] theorem State.setSchedule_cfg (es : List Event) : (s.setSchedule es).cfg = s.cfg := rfl
@[simp] theorem State.setSchedule_regs (es : List Event) : (s.setSchedule es).regs = s.regs := rfl
@[simp] theorem State.setSchedule_ctrl (es : List Event) : (s.setSchedule es).ctrl = s.ctrl := rfl
@[simp] theorem State.setSchedule_status (es : List Event) : (s.setSchedule es).status = s.status := rfl
@[simp] theorem State.setSchedule_cmd (es : List Event) : (s.setSchedule es).cmd = s.cmd := rfl
@[simp] theorem State.setSchedule_vstatus (es : List Event) : (s.setSchedule es).vstatus = s.vstatus := rfl
@[simp] theorem State.setSchedule_schedule (es : List Event) : (s.setSchedule es).schedule = es := rfl
@[simp] theorem State.setSchedule_draws (es : List Event) : (s.setSchedule es).draws = s.draws := rfl
@[simp] theorem State.setSchedule_replies (es : List Event) : (s.setSchedule es).replies = s.replies := rfl
@[simp] theorem State.setSchedule_reg (es : List Event) (j : Reg) : (s.setSchedule es).reg j = s.reg j := rfl

@[simp] theorem State.pushReply_cfg (r : Reply) : (s.pushReply r).cfg = s.cfg := rfl
@[simp] theorem State.pushReply_regs (r : Reply) : (s.pushReply r).regs = s.regs := rfl
@[simp] theorem State.pushReply_ctrl (r : Reply) : (s.pushReply r).ctrl = s.ctrl := rfl
@[simp] theorem State.pushReply_status (r : Reply) : (s.pushReply r).status = s.status := rfl
@[simp] theorem State.pushReply_cmd (r : Reply) : (s.pushReply r).cmd = s.cmd := rfl
@[simp] theorem State.pushReply_vstatus (r : Reply) : (s.pushReply r).vstatus = s.vstatus := rfl
@[simp] theorem State.pushReply_schedule (r : Reply) : (s.pushReply r).schedule = s.schedule := rfl
@[simp] theorem State.pushReply_draws (r : Reply) : (s.pushReply r).draws = s.draws := rfl
@[simp] theorem State.pushReply_replies (r : Reply) : (s.pushReply r).replies = r :: s.replies := rfl
@[simp] theorem State.pushReply_reg (r : Reply) (j : Reg) : (s.pushReply r).reg j = s.reg j := rfl

@[simp] theorem State.countDraw_cfg : (s.countDraw).cfg = s.cfg := rfl
@[simp] theorem State.countDraw_regs : (s.countDraw).regs = s.regs := rfl
@[simp] theorem State.countDraw_ctrl : (s.countDraw).ctrl = s.ctrl := rfl
@[simp] theorem State.countDraw_status : (s.countDraw).status = s.status := rfl
@[simp] theorem State.countDraw_cmd : (s.countDraw).cmd = s.cmd := rfl
@[simp] theorem State.countDraw_vstatus : (s.countDraw).vstatus = s.vstatus := rfl
@[simp] theorem State.countDraw_schedule : (s.countDraw).schedule = s.schedule := rfl
@[simp] theorem State.countDraw_draws : (s.countDraw).draws = s.draws + 1 := rfl
@[simp] theorem State.countDraw_replies : (s.countDraw).replies = s.replies := rfl
@[simp] theorem State.countDraw_reg (j : Reg) : (s.countDraw).reg j = s.reg j := rfl

/-- Reading the register just written gives the integer of its pattern (rule R15). -/
@[simp] theorem State.setReg_reg_same (i : Reg) (v : Int) :
    (s.setReg i v).reg i = sext s.cfg (twos s.cfg v) := by
  simp [State.reg]

/-- A write leaves every other register alone. -/
theorem State.setReg_reg_ne {i j : Reg} (v : Int) (h : j ≠ i) : (s.setReg i v).reg j = s.reg j := by
  have : i.val ≠ j.val := fun e => h (Fin.ext e.symm)
  simp [State.reg, this]

/-- Reading any register after a write. -/
theorem State.setReg_reg (i j : Reg) (v : Int) :
    (s.setReg i v).reg j = if j = i then sext s.cfg (twos s.cfg v) else s.reg j := by
  by_cases h : j = i
  · subst h; simp
  · simp [h, State.setReg_reg_ne]
end Fields

/-- Two register files that read the same everywhere are the same. -/
theorem State.regs_ext {s t : State} (h : ∀ i : Reg, s.reg i = t.reg i) : s.regs = t.regs := by
  apply Vector.ext
  intro i hi
  exact h ⟨i, hi⟩

/-- The integer of the pattern of an integer in range is that integer (rule R10). -/
theorem sext_twos_of_inRange (c : Config) (hc : 0 < c.rw) {x : Int}
    (h : -2 ^ (c.rw - 1) ≤ x ∧ x < 2 ^ (c.rw - 1)) : sext c (twos c x) = x := by
  obtain ⟨k, hk⟩ : ∃ k, c.rw = k + 1 := ⟨c.rw - 1, by omega⟩
  unfold sext twos
  rw [BitVec.toInt_ofInt]
  rw [hk] at h ⊢
  apply Int.bmod_eq_of_le
  · rw [Nat.pow_succ]; push_cast; simp only [Nat.add_sub_cancel] at h; omega
  · rw [Nat.pow_succ]; push_cast; simp only [Nat.add_sub_cancel] at h; omega

/-- The integer of any pattern is in range (rule R19). -/
theorem sext_inRange (c : Config) (v : BitVec c.rw) :
    -2 ^ (c.rw - 1) ≤ sext c v ∧ sext c v < 2 ^ (c.rw - 1) :=
  ⟨BitVec.le_toInt v, BitVec.toInt_lt⟩

section Derived
variable (s : State)
@[simp] theorem State.touchParam_cfg (i : Reg) : (s.touchParam i).cfg = s.cfg := by
  unfold State.touchParam; split <;> rfl
@[simp] theorem State.touchParam_regs (i : Reg) : (s.touchParam i).regs = s.regs := by
  unfold State.touchParam; split <;> rfl
@[simp] theorem State.touchParam_ctrl (i : Reg) : (s.touchParam i).ctrl = s.ctrl := by
  unfold State.touchParam; split <;> rfl
@[simp] theorem State.touchParam_status (i : Reg) : (s.touchParam i).status = s.status := by
  unfold State.touchParam; split <;> rfl
@[simp] theorem State.touchParam_cmd (i : Reg) : (s.touchParam i).cmd = s.cmd := by
  unfold State.touchParam; split <;> rfl
@[simp] theorem State.touchParam_schedule (i : Reg) : (s.touchParam i).schedule = s.schedule := by
  unfold State.touchParam; split <;> rfl
@[simp] theorem State.touchParam_draws (i : Reg) : (s.touchParam i).draws = s.draws := by
  unfold State.touchParam; split <;> rfl
@[simp] theorem State.touchParam_replies (i : Reg) : (s.touchParam i).replies = s.replies := by
  unfold State.touchParam; split <;> rfl
@[simp] theorem State.touchParam_vstatus (i : Reg) :
    (s.touchParam i).vstatus = if i ≤ 5 then s.vstatus.stale else s.vstatus := by
  unfold State.touchParam; split <;> rfl
@[simp] theorem State.touchParam_reg (i j : Reg) : (s.touchParam i).reg j = s.reg j := by
  unfold State.touchParam; split <;> rfl

@[simp] theorem State.writeDest_cfg (rd : Reg) (v : Int) : (s.writeDest rd v).cfg = s.cfg := by
  simp [State.writeDest]
@[simp] theorem State.writeDest_regs (rd : Reg) (v : Int) : (s.writeDest rd v).regs = s.regs.set rd (sext s.cfg (twos s.cfg v)) := by
  simp [State.writeDest]
@[simp] theorem State.writeDest_ctrl (rd : Reg) (v : Int) : (s.writeDest rd v).ctrl = s.ctrl := by
  simp [State.writeDest]
@[simp] theorem State.writeDest_status (rd : Reg) (v : Int) : (s.writeDest rd v).status = s.status := by
  simp [State.writeDest]
@[simp] theorem State.writeDest_cmd (rd : Reg) (v : Int) : (s.writeDest rd v).cmd = s.cmd := by
  simp [State.writeDest]
@[simp] theorem State.writeDest_vstatus (rd : Reg) (v : Int) : (s.writeDest rd v).vstatus = if rd ≤ 5 then s.vstatus.stale else s.vstatus := by
  simp [State.writeDest]
@[simp] theorem State.writeDest_schedule (rd : Reg) (v : Int) : (s.writeDest rd v).schedule = s.schedule := by
  simp [State.writeDest]
@[simp] theorem State.writeDest_draws (rd : Reg) (v : Int) : (s.writeDest rd v).draws = s.draws := by
  simp [State.writeDest]
@[simp] theorem State.writeDest_replies (rd : Reg) (v : Int) : (s.writeDest rd v).replies = s.replies := by
  simp [State.writeDest]
/-- Reading a register after the destination write of a command (rules R15 and R30). -/
theorem State.writeDest_reg (rd j : Reg) (v : Int) :
    (s.writeDest rd v).reg j = if j = rd then sext s.cfg (twos s.cfg v) else s.reg j := by
  simp [State.writeDest, State.setReg_reg]

@[simp] theorem State.issue_cfg (w : Word) : (s.issue w).cfg = s.cfg := rfl
@[simp] theorem State.issue_regs (w : Word) : (s.issue w).regs = s.regs := rfl
@[simp] theorem State.issue_ctrl (w : Word) : (s.issue w).ctrl = s.ctrl := rfl
@[simp] theorem State.issue_status (w : Word) : (s.issue w).status = s.status.issued := rfl
@[simp] theorem State.issue_cmd (w : Word) : (s.issue w).cmd = w := rfl
@[simp] theorem State.issue_vstatus (w : Word) : (s.issue w).vstatus = s.vstatus := rfl
@[simp] theorem State.issue_schedule (w : Word) : (s.issue w).schedule = s.schedule := rfl
@[simp] theorem State.issue_draws (w : Word) : (s.issue w).draws = s.draws := rfl
@[simp] theorem State.issue_replies (w : Word) : (s.issue w).replies = s.replies := rfl
@[simp] theorem State.issue_reg (w : Word) (j : Reg) : (s.issue w).reg j = s.reg j := rfl

@[simp] theorem State.resetBlock_cfg : s.resetBlock.cfg = s.cfg := rfl
@[simp] theorem State.resetBlock_regs : s.resetBlock.regs = Vector.replicate 16 0 := rfl
@[simp] theorem State.resetBlock_ctrl : s.resetBlock.ctrl = ⟨false⟩ := rfl
@[simp] theorem State.resetBlock_status : s.resetBlock.status = Status.reset := rfl
@[simp] theorem State.resetBlock_cmd : s.resetBlock.cmd = 0 := rfl
@[simp] theorem State.resetBlock_vstatus : s.resetBlock.vstatus = VStatus.reset := rfl
@[simp] theorem State.resetBlock_schedule : s.resetBlock.schedule = s.schedule := rfl
@[simp] theorem State.resetBlock_draws : s.resetBlock.draws = s.draws := rfl
@[simp] theorem State.resetBlock_replies : s.resetBlock.replies = s.replies := rfl
@[simp] theorem State.resetBlock_reg (j : Reg) : s.resetBlock.reg j = 0 := by
  simp [State.reg]
@[simp] theorem State.resetOf_reg (c : Config) (j : Reg) : (State.resetOf c).reg j = 0 := by
  simp [State.reg, State.resetOf]
end Derived

section StatusFields
variable (t : Status)
@[simp] theorem Status.issued_busy : (t.issued).busy = true := rfl
@[simp] theorem Status.issued_done : (t.issued).done = false := rfl
@[simp] theorem Status.issued_err : (t.issued).err = false := rfl
@[simp] theorem Status.issued_found : (t.issued).found = false := rfl
@[simp] theorem Status.issued_neghit : (t.issued).neghit = false := rfl
@[simp] theorem Status.issued_exceeds : (t.issued).exceeds = false := rfl
@[simp] theorem Status.issued_ovr : (t.issued).ovr = t.ovr := rfl
@[simp] theorem Status.issued_irqp : (t.issued).irqp = t.irqp := rfl
@[simp] theorem Status.issued_ecode : (t.issued).ecode = none := rfl

@[simp] theorem Status.finished_busy : (t.finished).busy = false := rfl
@[simp] theorem Status.finished_done : (t.finished).done = true := rfl
@[simp] theorem Status.finished_err : (t.finished).err = false := rfl
@[simp] theorem Status.finished_found : (t.finished).found = t.found := rfl
@[simp] theorem Status.finished_neghit : (t.finished).neghit = t.neghit := rfl
@[simp] theorem Status.finished_exceeds : (t.finished).exceeds = t.exceeds := rfl
@[simp] theorem Status.finished_ovr : (t.finished).ovr = t.ovr := rfl
@[simp] theorem Status.finished_irqp : (t.finished).irqp = true := rfl
@[simp] theorem Status.finished_ecode : (t.finished).ecode = none := rfl

@[simp] theorem Status.failed_busy (e : ErrorCode) : (t.failed e).busy = false := rfl
@[simp] theorem Status.failed_done (e : ErrorCode) : (t.failed e).done = true := rfl
@[simp] theorem Status.failed_err (e : ErrorCode) : (t.failed e).err = true := rfl
@[simp] theorem Status.failed_found (e : ErrorCode) : (t.failed e).found = t.found := rfl
@[simp] theorem Status.failed_neghit (e : ErrorCode) : (t.failed e).neghit = t.neghit := rfl
@[simp] theorem Status.failed_exceeds (e : ErrorCode) : (t.failed e).exceeds = t.exceeds := rfl
@[simp] theorem Status.failed_ovr (e : ErrorCode) : (t.failed e).ovr = t.ovr := rfl
@[simp] theorem Status.failed_irqp (e : ErrorCode) : (t.failed e).irqp = true := rfl
@[simp] theorem Status.failed_ecode (e : ErrorCode) : (t.failed e).ecode = some e := rfl

@[simp] theorem Status.overrun_busy : (t.overrun).busy = t.busy := rfl
@[simp] theorem Status.overrun_done : (t.overrun).done = t.done := rfl
@[simp] theorem Status.overrun_err : (t.overrun).err = t.err := rfl
@[simp] theorem Status.overrun_found : (t.overrun).found = t.found := rfl
@[simp] theorem Status.overrun_neghit : (t.overrun).neghit = t.neghit := rfl
@[simp] theorem Status.overrun_exceeds : (t.overrun).exceeds = t.exceeds := rfl
@[simp] theorem Status.overrun_ovr : (t.overrun).ovr = true := rfl
@[simp] theorem Status.overrun_irqp : (t.overrun).irqp = t.irqp := rfl
@[simp] theorem Status.overrun_ecode : (t.overrun).ecode = t.ecode := rfl

@[simp] theorem Status.withHit_busy (n x : Bool) : (t.withHit n x).busy = t.busy := rfl
@[simp] theorem Status.withHit_done (n x : Bool) : (t.withHit n x).done = t.done := rfl
@[simp] theorem Status.withHit_err (n x : Bool) : (t.withHit n x).err = t.err := rfl
@[simp] theorem Status.withHit_found (n x : Bool) : (t.withHit n x).found = true := rfl
@[simp] theorem Status.withHit_neghit (n x : Bool) : (t.withHit n x).neghit = n := rfl
@[simp] theorem Status.withHit_exceeds (n x : Bool) : (t.withHit n x).exceeds = x := rfl
@[simp] theorem Status.withHit_ovr (n x : Bool) : (t.withHit n x).ovr = t.ovr := rfl
@[simp] theorem Status.withHit_irqp (n x : Bool) : (t.withHit n x).irqp = t.irqp := rfl
@[simp] theorem Status.withHit_ecode (n x : Bool) : (t.withHit n x).ecode = t.ecode := rfl

@[simp] theorem Status.written_busy (v : Word) : (t.written v).busy = t.busy := rfl
@[simp] theorem Status.written_done (v : Word) : (t.written v).done = t.done := rfl
@[simp] theorem Status.written_err (v : Word) : (t.written v).err = t.err := rfl
@[simp] theorem Status.written_found (v : Word) : (t.written v).found = t.found := rfl
@[simp] theorem Status.written_neghit (v : Word) : (t.written v).neghit = t.neghit := rfl
@[simp] theorem Status.written_exceeds (v : Word) : (t.written v).exceeds = t.exceeds := rfl
@[simp] theorem Status.written_ovr (v : Word) : (t.written v).ovr = (t.ovr && !v.getLsbD 6) := rfl
@[simp] theorem Status.written_irqp (v : Word) : (t.written v).irqp = (t.irqp && !v.getLsbD 7) := rfl
@[simp] theorem Status.written_ecode (v : Word) : (t.written v).ecode = t.ecode := rfl

end StatusFields

@[simp] theorem VStatus.stale_valid (v : VStatus) : v.stale.valid = false := rfl

end Sys2Proof.Machine
end

