-- ==== Sys2Proof/Laws/Bus.lean ====
section
/-! SUPPORT. The operand window word by word (20_memory.md rules R38, R45 and R46): a word written is read back, other
words are left alone, and the words of a register determine it. -/

namespace Sys2Proof.Machine

/-- The pattern of the integer of a pattern is that pattern (rule R10). -/
@[simp] theorem twos_sext (c : Config) (v : BitVec c.rw) : twos c (sext c v) = v := BitVec.ofInt_toInt

/-- The bits of a pattern with one word replaced. -/
theorem replaceWord_getLsbD (c : Config) (pat : BitVec c.rw) (w : Nat) (v : Word) (i : Nat) (hi : i < c.rw) :
    (replaceWord c pat w v).getLsbD i =
      if 32 * w ≤ i ∧ i < 32 * w + 32 then v.getLsbD (i - 32 * w) else pat.getLsbD i := by
  have hm : ∀ k, (0xFFFFFFFF#32).getLsbD k = decide (k < 32) := fun k => by
    rw [show (0xFFFFFFFF#32) = BitVec.allOnes 32 by decide, BitVec.getLsbD_allOnes]
  unfold replaceWord
  rw [BitVec.getLsbD_or, BitVec.getLsbD_and, BitVec.getLsbD_not, BitVec.getLsbD_shiftLeft, BitVec.getLsbD_shiftLeft,
    BitVec.getLsbD_setWidth, BitVec.getLsbD_setWidth, hm]
  by_cases h1 : i < 32 * w
  · simp [hi, h1, show ¬ (32 * w ≤ i) by omega]
  · by_cases h2 : i < 32 * w + 32
    · simp [hi, h1, h2, show 32 * w ≤ i by omega, show i - 32 * w < 32 by omega, show i - 32 * w < c.rw by omega]
    · have : v.getLsbD (i - 32 * w) = false := BitVec.getLsbD_of_ge _ _ (by omega)
      simp [hi, h1, h2, show ¬ (i - 32 * w < 32) by omega, this]

/-- Word w' of a register after a write of word w (rule R38). -/
theorem operandWord_withOperandWord (c : Config) (x : Int) {w w' : Nat} (v : Word) (hw' : w' < c.nw) :
    operandWord c (withOperandWord c x w v) w' = if w' = w then v else operandWord c x w' := by
  have hr : c.rw = 32 * c.nw := rfl
  unfold operandWord withOperandWord
  rw [twos_sext]
  apply BitVec.eq_of_getLsbD_eq
  intro i hi
  have hb : 32 * w' + i < c.rw := by omega
  rw [BitVec.getLsbD_extractLsb', replaceWord_getLsbD _ _ _ _ _ hb]
  by_cases h : w' = w
  · subst h; simp [hi]
  · have : ¬ (32 * w ≤ 32 * w' + i ∧ 32 * w' + i < 32 * w + 32) := by omega
    simp [h, this, hi]

/-- Two patterns with the same words are the same. -/
theorem pattern_ext (c : Config) {a b : BitVec c.rw}
    (h : ∀ w < c.nw, a.extractLsb' (32 * w) 32 = b.extractLsb' (32 * w) 32) : a = b := by
  have hr : c.rw = 32 * c.nw := rfl
  apply BitVec.eq_of_getLsbD_eq
  intro i hi
  have h1 := congrArg (fun z => z.getLsbD (i % 32)) (h (i / 32) (by omega))
  simp only [BitVec.getLsbD_extractLsb'] at h1
  have e : 32 * (i / 32) + i % 32 = i := Nat.div_add_mod i 32
  simpa [e, Nat.mod_lt] using h1

/-- An operand word is mapped where rule R37 puts it. -/
theorem placeAt_opword {nw : Nat} (hn : nw ≤ 256) (k : Reg) {w : Nat} (hw : w < nw) :
    placeAt nw (opword k w) = .operand k w := by
  have hk := k.isLt
  have h1 : (opword k w - 0x1000) % 0x400 / 4 = w := by unfold opword; omega
  have h2 : (opword k w - 0x1000) / 0x400 = k.val := by unfold opword; omega
  have hlo : 0x1000 ≤ opword k w := by unfold opword; omega
  have hhi : opword k w < 0x5000 := by unfold opword; omega
  unfold placeAt
  rw [if_neg (by omega), if_neg (by omega), if_neg (by omega), if_neg (by omega), if_neg (by omega),
    if_neg (by omega), if_neg (by omega), if_pos ⟨hlo, hhi⟩, h1, h2]
  simp [hw]

end Sys2Proof.Machine
end

