-- ==== Sys2Proof/Laws/Dlog.lean ====
section
/-! SUPPORT. What the baby-step table holds and what the giant steps find (42_dlog.md rules R80, R81 and R84). -/

namespace Sys2Proof.Machine

/-- e is the least exponent below N whose power of g is y mod p. -/
def LeastHit (p g : Int) (N : Nat) (y : Int) (e : Nat) : Prop :=
  e < N ∧ g ^ e % p = y ∧ ∀ k < e, g ^ k % p ≠ y

/-- No exponent below N has a power of g that is y mod p. -/
def NoHit (p g : Int) (N : Nat) (y : Int) : Prop := ∀ k < N, g ^ k % p ≠ y

/-- A table of the powers of g below j: every key with its least exponent, and no key missing (rule R80). -/
def IsTable (p g : Int) (j : Nat) (t : BabyTable) : Prop :=
  ∀ y, match t.lookup y with
    | some i => LeastHit p g j y i
    | none => NoHit p g j y

theorem IsTable.of_some {p g : Int} {j : Nat} {t : BabyTable} (h : IsTable p g j t) {y : Int} {i : Nat}
    (e : t.lookup y = some i) : LeastHit p g j y i := by
  have := h y; rwa [e] at this

theorem IsTable.of_none {p g : Int} {j : Nat} {t : BabyTable} (h : IsTable p g j t) {y : Int}
    (e : t.lookup y = none) : NoHit p g j y := by
  have := h y; rwa [e] at this

/-- One more entry keeps a table a table. -/
theorem IsTable.step {p g : Int} {j : Nat} {v : Int} {t : BabyTable} (hv : v = g ^ j % p) (h : IsTable p g j t) :
    IsTable p g (j + 1) (match t.lookup v with | none => (v, j) :: t | some _ => t) := by
  intro y
  cases hl : t.lookup v with
  | some i =>
    have hi := h.of_some hl
    simp only
    cases hy : t.lookup y with
    | some k => exact ⟨Nat.lt_succ_of_lt (h.of_some hy).1, (h.of_some hy).2⟩
    | none =>
      intro k hk
      rcases Nat.lt_succ_iff_lt_or_eq.1 hk with hk | rfl
      · exact h.of_none hy k hk
      · intro e
        rw [hv.trans e] at hl
        rw [hl] at hy
        cases hy
  | none =>
    have hn := h.of_none hl
    simp only [List.lookup_cons]
    by_cases e : y = v
    · subst e
      simp only [beq_self_eq_true]
      exact ⟨Nat.lt_succ_self j, hv.symm, hn⟩
    · have : (y == v) = false := by simpa using e
      rw [this]
      cases hy : t.lookup y with
      | some k => exact ⟨Nat.lt_succ_of_lt (h.of_some hy).1, (h.of_some hy).2⟩
      | none =>
        intro k hk
        rcases Nat.lt_succ_iff_lt_or_eq.1 hk with hk | rfl
        · exact h.of_none hy k hk
        · exact fun e' => e (e'.symm.trans hv.symm)

/-- The loop of rule R80 builds the table of j + n entries. -/
theorem babySteps_spec {p g : Int} : ∀ n j v t, v = g ^ j % p → IsTable p g j t →
    IsTable p g (j + n) (babySteps p g n j v t)
  | 0, _, _, _, _, h => h
  | n + 1, j, v, t, hv, h => by
    have := babySteps_spec (p := p) (g := g) n (j + 1) (v * g % p) _
      (by rw [hv, pow_succ, Int.mul_emod, Int.emod_emod_of_dvd _ dvd_rfl, ← Int.mul_emod]) (h.step hv)
    rwa [Nat.add_right_comm] at this

/-- T is the table of the first m powers of G mod P (rule R80). -/
theorem babyTable_spec {p g : Int} (hp : 2 ≤ p) (m : Nat) : IsTable p (g % p) m (babyTable p g m) := by
  have := babySteps_spec (p := p) (g := g % p) m 0 1 []
    (by rw [pow_zero, Int.emod_eq_of_lt] <;> omega) (fun y k hk => absurd hk (Nat.not_lt_zero k))
  rwa [Nat.zero_add] at this

/-- With g^m * f = 1 (mod p), the probe value y0 * f^i meets g^j exactly when y0 meets g^(m*i + j) (rule R84). -/
theorem probe_iff {p g f y0 : Int} {m : Nat} (hf : g ^ m * f ≡ 1 [ZMOD p]) (h0 : y0 % p = y0) (i j : Nat) :
    g ^ j % p = y0 * f ^ i % p ↔ g ^ (i * m + j) % p = y0 := by
  have hcancel : g ^ (i * m) * f ^ i ≡ 1 [ZMOD p] := by
    have := hf.pow i
    rwa [mul_pow, ← pow_mul, one_pow, Nat.mul_comm m i] at this
  constructor
  · intro h
    have h1 : g ^ j ≡ y0 * f ^ i [ZMOD p] := h
    have h2 := h1.mul_left (g ^ (i * m))
    rw [← pow_add] at h2
    have h3 : g ^ (i * m) * (y0 * f ^ i) ≡ y0 * 1 [ZMOD p] := by
      have := hcancel.mul_left y0
      calc g ^ (i * m) * (y0 * f ^ i) = y0 * (g ^ (i * m) * f ^ i) := by ring
        _ ≡ y0 * 1 [ZMOD p] := this
    have h4 : g ^ (i * m + j) ≡ y0 [ZMOD p] := by simpa using h2.trans h3
    exact (show g ^ (i * m + j) % p = y0 % p from h4).trans h0
  · intro h
    have h1 : g ^ (i * m + j) ≡ y0 [ZMOD p] := by rw [← h]; exact (Int.mod_modEq _ _).symm
    have h2 := h1.mul_right (f ^ i)
    have h3 : g ^ (i * m + j) * f ^ i ≡ g ^ j * 1 [ZMOD p] := by
      have := hcancel.mul_left (g ^ j)
      calc g ^ (i * m + j) * f ^ i = g ^ j * (g ^ (i * m) * f ^ i) := by rw [pow_add]; ring
        _ ≡ g ^ j * 1 [ZMOD p] := this
    have h4 : g ^ j ≡ y0 * f ^ i [ZMOD p] := by simpa using h3.symm.trans h2
    exact h4

/-- The giant-step loop from probe i on finds the least exponent below (i + n)*m, or none (rule R84). -/
theorem giantSteps_spec {p g f y0 : Int} {m : Nat} {t : BabyTable} (hf : g ^ m * f ≡ 1 [ZMOD p])
    (h0 : y0 % p = y0) (ht : IsTable p g m t) : ∀ n i y, y = y0 * f ^ i % p → NoHit p g (i * m) y0 →
    (∃ e : Nat, giantSteps p f m t n i y = some (e : Int) ∧ LeastHit p g ((i + n) * m) y0 e) ∨
      (giantSteps p f m t n i y = none ∧ NoHit p g ((i + n) * m) y0)
  | 0, _, _, _, hn => .inr ⟨rfl, hn⟩
  | n + 1, i, y, hy, hn => by
    have heq := fun j => probe_iff (f := f) hf h0 i j
    unfold giantSteps
    cases hl : t.lookup y with
    | some j =>
      obtain ⟨hj, hg, hmin⟩ := ht.of_some hl
      refine .inl ⟨i * m + j, rfl, ?_, (heq j).1 (hg.trans hy), fun k hk => ?_⟩
      · have : (i + 1) * m ≤ (i + (n + 1)) * m := Nat.mul_le_mul_right m (by omega)
        rw [Nat.add_mul, Nat.one_mul] at this
        omega
      · rcases lt_or_ge k (i * m) with h | h
        · exact hn k h
        · obtain ⟨c, rfl⟩ := Nat.exists_eq_add_of_le h
          exact fun e => hmin c (by omega) (((heq c).2 e).trans hy.symm)
    | none =>
      have hno := ht.of_none hl
      have := giantSteps_spec hf h0 ht n (i + 1) (y * f % p)
        (by rw [hy, pow_succ, ← mul_assoc, Int.mul_emod, Int.emod_emod_of_dvd _ dvd_rfl, ← Int.mul_emod])
        (fun k hk => by
          rcases lt_or_ge k (i * m) with h | h
          · exact hn k h
          · obtain ⟨c, rfl⟩ := Nat.exists_eq_add_of_le h
            rw [Nat.add_mul, Nat.one_mul] at hk
            exact fun e => hno c (by omega) (((heq c).2 e).trans hy.symm))
      rwa [show i + 1 + n = i + (n + 1) by omega] at this

/-- Search(y) returns the least exponent in [0, E] whose power of G is y, or none (rule R84). -/
theorem search_spec {p g f y : Int} {m : Nat} {t : BabyTable} (hf : g ^ m * f ≡ 1 [ZMOD p]) (h0 : y % p = y)
    (ht : IsTable p g m t) :
    (∃ e : Nat, search p f m t y = some (e : Int) ∧ LeastHit p g ((m + 1) * m) y e) ∨
      (search p f m t y = none ∧ NoHit p g ((m + 1) * m) y) := by
  have := giantSteps_spec hf h0 ht (m + 1) 0 y (by simpa using h0.symm)
    (fun k hk => absurd hk (by simp))
  rwa [Nat.zero_add] at this

/-- The stride F of rule R81 undoes m steps of G. -/
theorem stride_spec {p g f : Int} {m : Int} (hp : 2 ≤ p) (hm : 1 ≤ m) (h : sModExp g (-m) p = some f) :
    (g % p) ^ m.toNat * f ≡ 1 [ZMOD p] := by
  rw [sModExp_neg hp (by omega)] at h
  split at h
  · rename_i hi
    cases h
    rw [neg_neg]
    have h1 := (inv_spec hp ((hasInv_powMod hp hm).trans hi)).2.2
    have h2 : powMod g m p * inv (powMod g m p) p ≡ 1 [ZMOD p] := by
      unfold Int.ModEq; rw [h1, Int.emod_eq_of_lt] <;> omega
    have h3 : (g % p) ^ m.toNat ≡ powMod g m p [ZMOD p] := by
      rw [powMod_eq hp]; exact (Int.mod_modEq _ _).symm
    exact (h3.mul_right _).trans h2
  · cases h

end Sys2Proof.Machine
end

