-- ==== Sys2Proof/Laws/Encoding.lean ====
section
/-! SUPPORT. The fields of an encoded word and of a masked word (30_encoding.md rules R55, R56 and R58). -/

namespace Sys2Proof

/-- Six fields of a format R word, top first. -/
def sixFields (a : BitVec 8) (b c d e : BitVec 4) (f : BitVec 8) : BitVec (8 + 4 + 4 + 4 + 4 + 8) :=
  a ++ b ++ c ++ d ++ e ++ f

/-- Four fields of a format I word, top first. -/
def fourFields (a : BitVec 16) (b c : BitVec 4) (d : BitVec 8) : BitVec (16 + 4 + 4 + 8) := a ++ b ++ c ++ d

/-- Masking a word masks its fields. -/
theorem sixFields_and (a a' : BitVec 8) (b c d e b' c' d' e' : BitVec 4) (f f' : BitVec 8) :
    sixFields a b c d e f &&& sixFields a' b' c' d' e' f' =
      sixFields (a &&& a') (b &&& b') (c &&& c') (d &&& d') (e &&& e') (f &&& f') := by
  simp only [sixFields, BitVec.and_append]

/-- Masking a format I word masks its fields. -/
theorem fourFields_and (a a' : BitVec 16) (b c b' c' : BitVec 4) (d d' : BitVec 8) :
    fourFields a b c d &&& fourFields a' b' c' d' =
      fourFields (a &&& a') (b &&& b') (c &&& c') (d &&& d') := by
  simp only [fourFields, BitVec.and_append]

section Fields
variable (a : BitVec 8) (b c d e : BitVec 4) (f : BitVec 8)

/-- The RD field of a word of six fields. -/
theorem sixFields_rd : (sixFields a b c d e f).extractLsb' 8 4 = e := by
  apply BitVec.eq_of_getLsbD_eq
  intro i hi
  simp only [sixFields, BitVec.getLsbD_extractLsb', BitVec.getLsbD_append, hi]
  simp [hi]

/-- The RA field of a word of six fields. -/
theorem sixFields_ra : (sixFields a b c d e f).extractLsb' 12 4 = d := by
  apply BitVec.eq_of_getLsbD_eq
  intro i hi
  simp only [sixFields, BitVec.getLsbD_extractLsb', BitVec.getLsbD_append, hi]
  simp [hi, show ¬ (12 + i < 8) by omega, show 12 + i - 8 = 4 + i by omega, show ¬ (4 + i < 4) by omega]

/-- The RB field of a word of six fields. -/
theorem sixFields_rb : (sixFields a b c d e f).extractLsb' 16 4 = c := by
  apply BitVec.eq_of_getLsbD_eq
  intro i hi
  simp only [sixFields, BitVec.getLsbD_extractLsb', BitVec.getLsbD_append, hi]
  simp [hi, show ¬ (16 + i < 8) by omega, show 16 + i - 8 = 8 + i by omega, show ¬ (8 + i < 4) by omega,
    show 8 + i - 4 = 4 + i by omega, show ¬ (4 + i < 4) by omega]

/-- FL[0] of a word of six fields. -/
theorem sixFields_fl0 : (sixFields a b c d e f).getLsbD 20 = b.getLsbD 0 := by
  simp only [sixFields, BitVec.getLsbD_append]
  simp
end Fields

/-- The fields of a format R word are its operands (rules R55 and R56). -/
theorem fieldsOf_formatR (opc : BitVec 8) (rd ra rb : Reg) (fl : BitVec 4) :
    (fieldsOf (formatR opc rd ra rb fl)).rd = rd ∧ (fieldsOf (formatR opc rd ra rb fl)).ra = ra ∧
      (fieldsOf (formatR opc rd ra rb fl)).rb = rb ∧
      (fieldsOf (formatR opc rd ra rb fl)).fl0 = fl.getLsbD 0 :=
  ⟨congrArg BitVec.toFin (sixFields_rd ..), congrArg BitVec.toFin (sixFields_ra ..),
    congrArg BitVec.toFin (sixFields_rb ..), sixFields_fl0 ..⟩

/-- The RD field of a word of four fields. -/
theorem fourFields_rd (a : BitVec 16) (b c : BitVec 4) (d : BitVec 8) :
    (fourFields a b c d).extractLsb' 8 4 = c := by
  apply BitVec.eq_of_getLsbD_eq
  intro i hi
  simp only [fourFields, BitVec.getLsbD_extractLsb', BitVec.getLsbD_append, hi]
  simp [hi]

/-- The immediate of a word of four fields. -/
theorem fourFields_imm (a : BitVec 16) (b c : BitVec 4) (d : BitVec 8) :
    (fourFields a b c d).extractLsb' 16 16 = a := by
  apply BitVec.eq_of_getLsbD_eq
  intro i hi
  simp only [fourFields, BitVec.getLsbD_extractLsb', BitVec.getLsbD_append, hi]
  simp [hi, show ¬ (16 + i < 8) by omega, show 16 + i - 8 = 8 + i by omega, show ¬ (8 + i < 4) by omega,
    show 8 + i - 4 = 4 + i by omega, show ¬ (4 + i < 4) by omega]

/-- The fields of a format I word are its operands (rules R55 and R57). -/
theorem fieldsOf_formatI (opc : BitVec 8) (rd : Reg) (imm : Int) (h : immInRange imm = true) :
    (fieldsOf (formatI opc rd imm)).rd = rd ∧ (fieldsOf (formatI opc rd imm)).imm = imm := by
  refine ⟨congrArg BitVec.toFin (fourFields_rd ..), (congrArg BitVec.toInt (fourFields_imm ..)).trans ?_⟩
  simp only [immInRange, Bool.and_eq_true, decide_eq_true_eq] at h
  rw [BitVec.toInt_ofInt]
  apply Int.bmod_eq_of_le <;> norm_num <;> omega

end Sys2Proof
end

