-- ==== Sys2Proof/Laws/Exec.lean ====
section
/-! SUPPORT. What a completion, a host access and a step can do, each said once: the inversion lemmas that later proofs
cite instead of unfolding the machine. -/

namespace Sys2Proof.Machine

@[simp] theorem finish_eq (s : State) : finish s = .next (s.setStatus s.status.finished) := rfl

@[simp] theorem raiseError_eq (s : State) (e : ErrorCode) :
    raiseError s e = .next (s.setStatus (s.status.failed e)) := rfl

@[simp] theorem conclude_ok (s t : State) : conclude s (.ok t) = finish t := rfl

@[simp] theorem conclude_error (s : State) (e : ErrorCode) : conclude s (.error e) = raiseError s e := rfl

/-- The writes a successful command makes before `finish`: none; a destination register; a destination register and the
DLOG flags; VSTATUS by VALIDATE; H and VSTATUS by DERIVEH. -/
def CommandEffect (s u : State) : Prop :=
  u = s ∨
  (∃ rd v, u = s.writeDest rd v) ∨
  (∃ rd v n x, u = (s.writeDest rd v).setStatus (s.status.withHit n x)) ∨
  (∃ d, u = s.setVStatus (validated s.cfg d (s.reg regP) (s.reg regQ) (s.reg regG) (s.reg regH) (s.reg regL) (s.reg regB)
    s.vstatus)) ∨
  (∃ h r, u = (s.setReg regH h).setVStatus (derived (s.reg regP) (s.reg regQ) r h s.vstatus))

/-- A command ends in exactly one of two completions (rule R98): an error with none of its writes, or success with
them. -/
theorem exec_shape (i : Instr) (s : State) :
    (∃ e, exec i s = raiseError s e) ∨ ∃ u, CommandEffect s u ∧ exec i s = finish u := by
  have hval : ∀ rd (r : Except ErrorCode Int), (∃ e, s.concludeValue rd r = raiseError s e) ∨
      ∃ u, CommandEffect s u ∧ s.concludeValue rd r = finish u := fun rd r => by
    cases r with
    | error e => exact .inl ⟨e, rfl⟩
    | ok v => exact .inr ⟨_, .inr (.inl ⟨rd, v, rfl⟩), rfl⟩
  cases i with
  | nop => exact .inr ⟨s, .inl rfl, rfl⟩
  | mov rd ra => exact .inr ⟨_, .inr (.inl ⟨rd, _, rfl⟩), rfl⟩
  | ldi rd imm => exact .inr ⟨_, .inr (.inl ⟨rd, _, rfl⟩), rfl⟩
  | modexp rd ra rb => exact hval rd _
  | modmul rd ra rb => exact hval rd _
  | modinv rd ra => exact hval rd _
  | mexpacc rd ra rb => exact hval rd _
  | validate d => exact .inr ⟨_, .inr (.inr (.inr (.inl ⟨d, rfl⟩))), rfl⟩
  | deriveh ra =>
    simp only [exec, execDeriveh]
    cases derivehValue (s.reg regP) (s.reg regG) (s.reg ra) with
    | error e => exact .inl ⟨e, rfl⟩
    | ok h => exact .inr ⟨_, .inr (.inr (.inr (.inr ⟨h, _, rfl⟩))), rfl⟩
  | dlog neg rd ra =>
    simp only [exec, execDlog]
    cases dlogResult s.cfg.tableEntries (s.reg regP) (s.reg regG) (s.reg regL) (s.reg regB) (s.reg ra) neg with
    | error e => exact .inl ⟨e, rfl⟩
    | ok hit => exact .inr ⟨_, .inr (.inr (.inl ⟨rd, hit.value, hit.negative, hit.exceeds, rfl⟩)), rfl⟩

/-- The state a step starts from: its event is taken off the schedule. -/
def State.popped (s : State) : State := s.setSchedule s.schedule.tail

/-- A host write changes one thing at most (rule R43). -/
theorem hostWrite_cases (s : State) (off : Nat) (v : Word) :
    s.hostWrite off v = s ∨ s.hostWrite off v = s.setCtrl (Ctrl.written v) ∨
    s.hostWrite off v = s.setStatus (s.status.written v) ∨
    (s.status.busy = true ∧ s.hostWrite off v = s.setStatus s.status.overrun) ∨
    (s.status.busy = false ∧ s.hostWrite off v = s.issue v) ∨
    (s.status.busy = false ∧ ∃ k w, s.hostWrite off v = s.writeOperandWord k w v) := by
  unfold State.hostWrite State.ignoredWrite
  cases placeAt s.cfg.nw off with
  | id => exact .inl rfl
  | cfg0 => exact .inl rfl
  | cfg1 => exact .inl rfl
  | ctrl => exact .inr (.inl rfl)
  | status => exact .inr (.inr (.inl rfl))
  | vstatus => exact .inl rfl
  | reserved => exact .inl rfl
  | cmd => cases h : s.status.busy <;> simp
  | operand k w =>
    cases h : s.status.busy with
    | true => simp
    | false =>
      simp only [Bool.false_eq_true, if_false, true_and, false_and, false_or]
      exact .inr (.inr (.inr (.inr ⟨k, w, rfl⟩)))

/-- A host read records one reply; it may count one draw and changes nothing else (rule R43). -/
theorem hostRead_cases (s : State) (host addr off : Nat) :
    ∃ v, s.hostRead host addr off = s.pushReply ⟨host, addr, v⟩ ∨
      s.hostRead host addr off = s.countDraw.pushReply ⟨host, addr, v⟩ := by
  unfold State.hostRead
  split
  · exact ⟨_, .inr rfl⟩
  · exact ⟨_, .inl rfl⟩

/-- Everything a step that answers a next state can have done (rules R17, R47 and R114). -/
theorem step_cases {s t : State} (h : step s = .next t) :
    (s.status.busy = false ∧ t = s.popped) ∨
    (s.status.busy = true ∧ ∃ e, t = s.popped.setStatus (s.status.failed e)) ∨
    (s.status.busy = true ∧ ∃ u, CommandEffect s.popped u ∧ t = u.setStatus u.status.finished) ∨
    (∃ host addr off, t = s.popped.hostRead host addr off) ∨
    (∃ off v, t = s.popped.hostWrite off v) ∨
    t = s.popped.resetBlock := by
  have heng : ∀ {p : State}, p.status = s.status → p = s.popped → engineStep p = .next t →
      (s.status.busy = false ∧ t = s.popped) ∨
      (s.status.busy = true ∧ ∃ e, t = s.popped.setStatus (s.status.failed e)) ∨
      (s.status.busy = true ∧ ∃ u, CommandEffect s.popped u ∧ t = u.setStatus u.status.finished) := by
    rintro p hp rfl he
    unfold engineStep at he
    rw [hp] at he
    cases hb : s.status.busy with
    | false => rw [hb] at he; cases he; exact .inl ⟨rfl, rfl⟩
    | true =>
      rw [hb] at he
      simp only [if_true, completion] at he
      split at he
      · cases he; exact .inr (.inl ⟨rfl, .illegal, rfl⟩)
      · rename_i i _
        rcases exec_shape i s.popped with ⟨e, hx⟩ | ⟨u, hu, hx⟩
        · rw [hx] at he; cases he; exact .inr (.inl ⟨rfl, e, rfl⟩)
        · rw [hx] at he; cases he; exact .inr (.inr ⟨rfl, u, hu, rfl⟩)
  unfold step nextStep at h
  split at h
  · rename_i hs
    have : s = s.popped := by unfold State.popped; rw [hs, List.tail_nil, ← hs]; rfl
    rcases heng rfl this h with h | h | h
    · exact .inl h
    · exact .inr (.inl h)
    · exact .inr (.inr (.inl h))
  · rename_i e rest hs
    have hp : s.setSchedule rest = s.popped := by unfold State.popped; rw [hs, List.tail_cons]
    rw [hp] at h
    cases e with
    | reset => cases h; exact .inr (.inr (.inr (.inr (.inr rfl))))
    | complete =>
      rcases heng (p := s.popped) rfl rfl h with h | h | h
      · exact .inl h
      · exact .inr (.inl h)
      · exact .inr (.inr (.inl h))
    | access a =>
      simp only [runEvent, access] at h
      split at h
      · cases h
      · split at h
        · cases h
        · split at h
          · cases h; exact .inr (.inr (.inr (.inl ⟨_, _, _, rfl⟩)))
          · cases h; exact .inr (.inr (.inr (.inr (.inl ⟨_, _, rfl⟩))))

@[simp] theorem run_zero (s : State) : run 0 s = .next s := rfl

/-- A run goes on from the state its first step answers. -/
theorem run_succ {s t : State} (n : Nat) (h : step s = .next t) : run (n + 1) s = run n t := by
  rw [run, h]

/-- The polling loop goes on after a STATUS word with BUSY = 1 and ends with the first word with BUSY = 0 (rule R64). -/
theorem pollLoop_cons {s t : State} {host : Nat} {es : List Event} {rounds : List (List Event)} {r : Reply}
    {rs : List Reply} (h : run (es.length + 1) (s.setSchedule (es ++ [pollEvent s.cfg host])) = .next t)
    (hr : t.replies = r :: rs) :
    pollLoop host (es :: rounds) s = if r.value.getLsbD 0 then pollLoop host rounds t else some (r.value, t) := by
  rw [pollLoop, h]
  simp only [hr]

/-- The run ends where it is over, or as the run of the next state does (rule R125). -/
theorem endOfRun_succ {s t : State} (n : Nat) (h : step s = .next t) :
    endOfRun (n + 1) s = if s.RunOver then some s else endOfRun n t := by
  rw [endOfRun, h]

end Sys2Proof.Machine
end

