-- ==== Sys2Proof/Laws/PerInstr.lean ====
section
/-! SUPPORT. Statements made for each command: the family `EncodingRow`. -/

namespace Sys2Proof.Laws.EncodingRow

/-- The word of a well-formed command spells a row of the opcode map, and that row builds the command from the word's
fields (30_encoding.md rules R55 to R58). -/
def Statement (i : Instr) : Prop :=
  i.wellFormed = true → ∃ r ∈ opcodeRows, r.spells (encode i) = true ∧ r.build (fieldsOf (encode i)) = i

/-- A masked format R word, field by field. -/
theorem formatR_and (opc : BitVec 8) (rd ra rb : Reg) (fl : BitVec 4) (a' : BitVec 8) (b' c' d' e' : BitVec 4)
    (f' : BitVec 8) :
    formatR opc rd ra rb fl &&& sixFields a' b' c' d' e' f' =
      sixFields (0#8 &&& a') (fl &&& b') (BitVec.ofFin (w := 4) rb &&& c') (BitVec.ofFin (w := 4) ra &&& d')
        (BitVec.ofFin (w := 4) rd &&& e') (opc &&& f') :=
  sixFields_and ..

/-- Three equal arguments. -/
theorem congr3 (c : Reg → Reg → Reg → Instr) {x y z rd ra rb : Reg} (hx : x = rd) (hy : y = ra) (hz : z = rb) :
    c x y z = c rd ra rb := by
  subst hx hy hz; rfl

theorem nop : Statement .nop := fun _ => ⟨opcodeRows[0], by simp [opcodeRows], by decide, rfl⟩

theorem mov (rd ra : Reg) : Statement (.mov rd ra) := fun _ => by
  obtain ⟨h1, h2, -, -⟩ := fieldsOf_formatR 0x01 rd ra 0 0
  refine ⟨opcodeRows[1], by simp [opcodeRows], ?_, congrArg₂ Instr.mov h1 h2⟩
  refine beq_iff_eq.2 ((formatR_and 0x01 rd ra 0 0 0xFF 0xF 0xF 0#4 0#4 0xFF).trans ?_)
  simp only [BitVec.and_zero]; decide

theorem ldi (rd : Reg) (imm : Int) : Statement (.ldi rd imm) := fun hw => by
  obtain ⟨h1, h2⟩ := fieldsOf_formatI 0x02 rd imm hw
  refine ⟨opcodeRows[2], by simp [opcodeRows], ?_, congrArg₂ Instr.ldi h1 h2⟩
  refine beq_iff_eq.2 ((fourFields_and (BitVec.ofInt 16 imm) 0#16 0#4 (BitVec.ofFin (w := 4) rd) 0xF 0#4 0x02 0xFF).trans ?_)
  simp only [BitVec.and_zero]; decide

theorem modexp (rd ra rb : Reg) : Statement (.modexp rd ra rb) := fun _ => by
  obtain ⟨h1, h2, h3, -⟩ := fieldsOf_formatR 0x10 rd ra rb 0
  refine ⟨opcodeRows[3], by simp [opcodeRows], ?_, congr3 Instr.modexp h1 h2 h3⟩
  refine beq_iff_eq.2 ((formatR_and 0x10 rd ra rb 0 0xFF 0xF 0#4 0#4 0#4 0xFF).trans ?_)
  simp only [BitVec.and_zero]; decide

theorem modmul (rd ra rb : Reg) : Statement (.modmul rd ra rb) := fun _ => by
  obtain ⟨h1, h2, h3, -⟩ := fieldsOf_formatR 0x11 rd ra rb 0
  refine ⟨opcodeRows[4], by simp [opcodeRows], ?_, congr3 Instr.modmul h1 h2 h3⟩
  refine beq_iff_eq.2 ((formatR_and 0x11 rd ra rb 0 0xFF 0xF 0#4 0#4 0#4 0xFF).trans ?_)
  simp only [BitVec.and_zero]; decide

theorem modinv (rd ra : Reg) : Statement (.modinv rd ra) := fun _ => by
  obtain ⟨h1, h2, -, -⟩ := fieldsOf_formatR 0x12 rd ra 0 0
  refine ⟨opcodeRows[5], by simp [opcodeRows], ?_, congrArg₂ Instr.modinv h1 h2⟩
  refine beq_iff_eq.2 ((formatR_and 0x12 rd ra 0 0 0xFF 0xF 0xF 0#4 0#4 0xFF).trans ?_)
  simp only [BitVec.and_zero]; decide

theorem mexpacc (rd ra rb : Reg) : Statement (.mexpacc rd ra rb) := fun _ => by
  obtain ⟨h1, h2, h3, -⟩ := fieldsOf_formatR 0x13 rd ra rb 0
  refine ⟨opcodeRows[6], by simp [opcodeRows], ?_, congr3 Instr.mexpacc h1 h2 h3⟩
  refine beq_iff_eq.2 ((formatR_and 0x13 rd ra rb 0 0xFF 0xF 0#4 0#4 0#4 0xFF).trans ?_)
  simp only [BitVec.and_zero]; decide

theorem validate (d : Bool) : Statement (.validate d) := fun _ =>
  ⟨opcodeRows[7], by simp [opcodeRows], by cases d <;> decide, by cases d <;> decide⟩

theorem deriveh (ra : Reg) : Statement (.deriveh ra) := fun _ => by
  obtain ⟨-, h2, -, -⟩ := fieldsOf_formatR 0x21 0 ra 0 0
  refine ⟨opcodeRows[8], by simp [opcodeRows], ?_, congrArg Instr.deriveh h2⟩
  refine beq_iff_eq.2 ((formatR_and 0x21 0 ra 0 0 0xFF 0xF 0xF 0#4 0xF 0xFF).trans ?_)
  simp only [BitVec.and_zero]; decide

theorem dlog (neg : Bool) (rd ra : Reg) : Statement (.dlog neg rd ra) := fun _ => by
  obtain ⟨h1, h2, -, h4⟩ := fieldsOf_formatR 0x30 rd ra 0 (flag0 neg)
  have h5 : (flag0 neg).getLsbD 0 = neg := by cases neg <;> rfl
  refine ⟨opcodeRows[9], by simp [opcodeRows], ?_, by
    show Instr.dlog _ _ _ = _; rw [show (fieldsOf (encode (.dlog neg rd ra))).fl0 = neg from h4.trans h5]
    exact congrArg₂ (Instr.dlog neg) h1 h2⟩
  refine beq_iff_eq.2 ((formatR_and 0x30 rd ra 0 (flag0 neg) 0xFF 0xE 0xF 0#4 0#4 0xFF).trans ?_)
  simp only [BitVec.and_zero]
  cases neg <;> decide

end Sys2Proof.Laws.EncodingRow
end

