-- ==== Sys2Proof/Tests/Slice0.lean ====
section
/-! SUPPORT. Tests of the model against the words and the vectors of the spec (30_encoding.md rule R61, 95_test_vectors.md),
and for every statement with hypotheses a state and operands that meet them. -/

namespace Sys2Proof.Machine.Tests

/-- The configuration of the spec's vectors (95_test_vectors.md). -/
def cfg3 : Config := ⟨3, 2 ^ 20, 0, []⟩

/-- The reset state of a configuration with R0, R1, ... loaded. -/
def load (c : Config) (vs : List Int) : State :=
  { State.resetOf c with regs := Vector.ofFn fun i => vs.getD i.val 0 }

/-- The block of the vectors with P, Q, G, H, L, B and R6, R7, ... loaded. -/
def vec (vs : List Int) : State := load cfg3 vs

/-- A command word issued and completed. -/
def did (s : State) (w : Word) : Result := step (s.withFetchWord 32 w.toNat)

/-- A test of a next state; a fault or a refusal fails it. -/
def gives (r : Result) (p : State → Bool) : Bool :=
  match r with
  | .next t => p t
  | .fault _ => false
  | .refused _ => false

/-- Register i and STATUS after a command. -/
def isReg (i : Reg) (v : Int) (st : Word) (t : State) : Bool := t.reg i == v && t.status.toWord == st

/-- The group T1 with H = 4 and two general registers. -/
def t1 (r6 r7 : Int) : State := vec [23, 11, 2, 4, 1, 2, r6, r7]

/-- The group T2 with a target in R7. -/
def t2 (t : Int) : State := vec [227, 113, 4, 0, 2, 5, 0, t]

/-! Syntax: what WellFormed refuses (rule R57). -/

theorem test_ldi_above_range_refused : (Instr.ldi 3 32768).wellFormed = false := by decide

theorem test_ldi_below_range_refused : (Instr.ldi 3 (-32769)).wellFormed = false := by decide

theorem test_ldi_limits_accepted :
    (Instr.ldi 3 32767).wellFormed = true ∧ (Instr.ldi 3 (-32768)).wellFormed = true := by decide

/-! Decoding: words written out from the fields of rule R55, high field first. -/

theorem test_decode_nop : decode (0#8 ++ 0#4 ++ 0#4 ++ 0#4 ++ 0#4 ++ 0x00#8) = some .nop := by decide

theorem test_decode_mov : decode (0#8 ++ 0#4 ++ 0#4 ++ 7#4 ++ 6#4 ++ 0x01#8) = some (.mov 6 7) := by decide

theorem test_decode_ldi : decode (0xFFF9#16 ++ 0#4 ++ 8#4 ++ 0x02#8) = some (.ldi 8 (-7)) := by decide

theorem test_decode_ldi_limits :
    decode 0x7FFF0602 = some (.ldi 6 32767) ∧ decode 0x80000602 = some (.ldi 6 (-32768)) := by decide

theorem test_decode_modexp : decode (0#8 ++ 0#4 ++ 10#4 ++ 9#4 ++ 8#4 ++ 0x10#8) = some (.modexp 8 9 10) := by decide

theorem test_decode_modmul : decode (0#8 ++ 0#4 ++ 7#4 ++ 6#4 ++ 15#4 ++ 0x11#8) = some (.modmul 15 6 7) := by decide

theorem test_decode_modinv : decode (0#8 ++ 0#4 ++ 0#4 ++ 14#4 ++ 7#4 ++ 0x12#8) = some (.modinv 7 14) := by decide

theorem test_decode_mexpacc : decode (0#8 ++ 0#4 ++ 11#4 ++ 8#4 ++ 6#4 ++ 0x13#8) = some (.mexpacc 6 8 11) := by decide

theorem test_decode_validate :
    decode (0#8 ++ 0#4 ++ 0#4 ++ 0#4 ++ 0#4 ++ 0x20#8) = some (.validate false) ∧
    decode (0#8 ++ 1#4 ++ 0#4 ++ 0#4 ++ 0#4 ++ 0x20#8) = some (.validate true) := by decide

theorem test_decode_deriveh : decode (0#8 ++ 0#4 ++ 0#4 ++ 6#4 ++ 0#4 ++ 0x21#8) = some (.deriveh 6) := by decide

theorem test_decode_dlog :
    decode (0#8 ++ 0#4 ++ 0#4 ++ 7#4 ++ 6#4 ++ 0x30#8) = some (.dlog false 6 7) ∧
    decode (0#8 ++ 1#4 ++ 0#4 ++ 7#4 ++ 6#4 ++ 0x30#8) = some (.dlog true 6 7) := by decide

/-- The illegal words of 95_test_vectors.md part 2.1. -/
theorem test_illegal_words :
    [0x00000003#32, 0x000000FF, 0x00000100, 0x00070601, 0x00001002, 0x01076611, 0x00100610, 0x00087712, 0x00000120,
      0x00200020, 0x00006121].all (fun w => (decode w).isNone) = true := by decide

/-- A comment, blanks, an alias and a hexadecimal immediate (rule R62). -/
theorem test_assembler_forms : assembleLine "ldi b, 0x10 ; the bound".toList = some (.ldi 5 16) := by decide

theorem test_assembler_refuses_immediate : assembleLine "ldi r6, 32768".toList = none := by decide

theorem test_assembler_refuses_register : assembleLine "mov r6, r16".toList = none := by decide

/-- The two pseudo-instructions (rule R63). -/
theorem test_assembler_setone : assembleLine "setone r6".toList = some (.ldi 6 1) := by decide

theorem test_assembler_clr : assembleLine "clr r15".toList = some (.ldi 15 0) := by decide

/-! Results, from the vectors of 95_test_vectors.md parts 2 and 3. -/

theorem test_nop : gives (did (vec []) 0x00000000) (fun t => t.status.toWord == 0x82) = true := by decide

theorem test_illegal : gives (did (t1 0 0) 0x00000003) (fun t => t.status.toWord == 0x186 && t.regs == (t1 0 0).regs) =
    true := by decide

theorem test_mov : gives (did (t1 0 (-7)) 0x00007601) (isReg 6 (-7) 0x82) = true := by decide

/-- `ldi r8, -7` fills the upper words with ones. -/
theorem test_ldi : gives (did (vec []) 0xFFF90802) (fun t => isReg 8 (-7) 0x82 t &&
    t.windowWord 0x3000 == 0xFFFFFFF9 && t.windowWord 0x3008 == 0xFFFFFFFF) = true := by decide

/-- X5 and the example of rule R91. -/
theorem test_modexp_negative : gives (did (vec [23, 0, 0, 0, 0, 0, 0, 0, 0, 2, -3]) 0x000A9810) (isReg 8 3 0x82) = true := by
  decide

theorem test_modexp_no_inverse : gives (did (vec [23, 0, 0, 0, 0, 0, 0, 0, 9, 0, -1]) 0x000A9810) (isReg 8 9 0x386) = true := by
  decide

/-- The example of rule R92 with a negative factor. -/
theorem test_modmul_negative : gives (did (vec [23, 0, 0, 0, 0, 0, -1, 7]) 0x00076611) (isReg 6 16 0x82) = true := by decide

theorem test_modmul_param : gives (did (vec [0, 0, 0, 0, 0, 0, 2, 3]) 0x00076611) (isReg 6 2 0x286) = true := by decide

theorem test_modinv : gives (did (vec [1283, 0, 0, 0, 0, 0, 0, 4]) 0x00007612) (isReg 6 321 0x82) = true := by decide

theorem test_modinv_gcd : gives (did (vec [15, 0, 0, 0, 0, 0, 8, 5]) 0x00007612) (isReg 6 8 0x386) = true := by decide

/-- A7 and A8: the old accumulator is the base, or the exponent. -/
theorem test_mexpacc_base_is_accumulator :
    gives (did (vec [23, 0, 0, 0, 0, 0, 3, 0, 0, 0, 0, 2]) 0x000B6613) (isReg 6 4 0x82) = true := by decide

theorem test_mexpacc_exponent_is_accumulator :
    gives (did (vec [23, 0, 0, 0, 0, 0, 3, 0, 2]) 0x00068613) (isReg 6 1 0x82) = true := by decide

/-- V9; and V5 on the reference PrimeTest, and on one that takes 9 for a prime (rule R8). -/
theorem test_validate_negative_and_composite_q :
    gives (did (vec [23, -1, 2, 0, 1, 2]) 0x00000020) (fun t => t.vstatus.toWord == 0x1B4) = true ∧
    gives (did (vec [19, 9, 4, 0, 1, 1]) 0x00000020) (fun t => t.vstatus.toWord == 0x3F6) = true ∧
    gives (did (load { cfg3 with composites := [9] } [19, 9, 4, 0, 1, 1]) 0x00000020) (fun t => t.vstatus.toWord == 0x3FF) =
      true := by decide

/-- V11. -/
theorem test_validate_d_filter2 :
    gives (did (vec [23, 11, 2, 12, 1, 2]) 0x00100020) (fun t => t.vstatus.toWord == 0x7FFE) = true := by decide

/-- H1 and H12. -/
theorem test_deriveh_filter2 :
    gives (did (t1 10 0) 0x00006021) (fun t => isReg 3 12 0x82 t && t.vstatus.toWord == 0x17800) = true := by decide

theorem test_deriveh_zero :
    gives (did (vec [23, 11, 0, 0, 1, 2, 3]) 0x00006021) (fun t => isReg 3 0 0x82 t && t.vstatus.toWord == 0x11800) =
      true := by decide

/-- D7 and D9: the negative branch, and the wrap that rule R86 tells of. -/
theorem test_dlog_negative : gives (did (t2 210) 0x00107630) (isReg 6 (-7) 0x9A) = true := by decide +kernel

theorem test_dlog_wrap : gives (did (t2 207) 0x00107630) (isReg 6 63 0xAA) = true := by decide +kernel

/-- Steps 14 to 20 of program 4: the dropped write, the draw, the completion. -/
theorem test_busy_write_overruns :
    gives (run 2 ((vec []).setSchedule [writeEvent cfg3 0 0x14 0x00170002, writeEvent cfg3 0 0x1000 9]))
      (fun t => t.status.toWord == 0x41 && t.reg 0 == 0 && t.cmd == 0x00170002) = true := by decide

theorem test_completion_after_overrun :
    gives (run 3 ((vec []).setSchedule [writeEvent cfg3 0 0x14 0x00170002, writeEvent cfg3 0 0x1000 9, .complete]))
      (isReg 0 23 0xC2) = true := by decide

theorem test_busy_read_is_a_draw :
    run 2 ((vec []).setSchedule [writeEvent cfg3 0 0x14 0, readEvent cfg3 5 0x1000]) =
      .next { (vec []).issue 0 with draws := 1, replies := [⟨5, 0x1000, Config.draw 0⟩] } := rfl

/-- Step 12 of program 4: a partial write leaves a mix. -/
theorem test_partial_operand_write :
    gives (step ((vec [0, 0, 0, 0, 0, 0, -7]).setSchedule [writeEvent cfg3 0 0x2800 5]))
      (fun t => t.reg 6 == -4294967291) = true := by decide

/-- Step 30 of program 4: writing the value an R0 word already holds clears VALID. -/
theorem test_same_value_clears_valid :
    gives (step (((t1 0 0).setVStatus { VStatus.reset with valid := true, safe := true }).setSchedule
      [writeEvent cfg3 0 0x1000 23])) (fun t => t.vstatus.toWord == 2 && t.reg 0 == 23) = true := by decide

/-- Steps 27 and 28 of program 4. -/
theorem test_bus_errors :
    step ((vec []).setSchedule [.access ⟨0, 0x12, 4, .read⟩]) = .fault (.busError ⟨0, 0x12, 4, .read⟩) ∧
    step ((vec []).setSchedule [.access ⟨0, 0x14, 1, .write 0x20⟩]) = .fault (.busError ⟨0, 0x14, 1, .write 0x20⟩) :=
  ⟨rfl, rfl⟩

/-- Steps 22 and 26 of program 4: only the W1C bits clear. -/
theorem test_status_write_one_to_clear :
    gives (step (((vec []).setStatus (Status.reset.overrun.failed .illegal)).setSchedule
      [writeEvent cfg3 0 0x10 0xFFFFFFFF])) (fun t => t.status.toWord == 0x106) = true := by decide

/-- A read and then a reset: the run is over after its last access (rule R125), before the reset that is left. -/
theorem test_run_ends_before_a_later_reset :
    (endOfRun 3 ((vec [0, 0, 0, 0, 0, 0, 5]).setSchedule [readEvent cfg3 0 0x2800, .reset])).map
      (fun u => (u.observe.regs[6], u.observe.replies)) = some (5, [⟨0, 0x2800, 5⟩]) := by decide

/-- `issue` of rule R64: two polls find BUSY = 1, then the command completes. -/
theorem test_issue_polls_until_idle :
    (issueCommand 0 (.ldi 8 (-7)) [[], [], [.complete]] (vec [])).map (fun r => (r.1, r.2.reg 8, r.2.replies.length)) =
      some (0x82, -7, 3) := by decide

/-- A word placed at reset is what the next step runs, in the reference configuration. -/
theorem test_fetch_word_at_reset :
    gives (step (State.reset.withFetchWord 32 0xFFF90802)) (isReg 8 (-7) 0x82) = true := by decide +kernel

theorem test_decode_table_word : decodeTableWord 32 0x00107630 = some (.dlog true 6 7) := by decide

/-! Witnesses: for each statement with hypotheses, concrete inputs that meet all of them. A state with NW = 3 unless the
statement needs more. -/

/-- A state with a command running and events scheduled. -/
def running (s : State) (w : Word) (es : List Event) : State := (s.issue w).setSchedule es

/-- The group of order 22 mod 23 with bound 4: m = 3, E = 11, and no wrap below the order. -/
def big (t : Int) : State := vec [23, 11, 5, 0, 1, 2, 0, t]

/-- T1 with L = B = 1: bound 1, m = 2, E = 5, below the order 11. -/
def small (t : Int) : State := vec [23, 11, 2, 0, 1, 1, 0, t]

/-- A search size from its square root. -/
theorem searchSize_of {l b c : Int} (h0 : 0 ≤ c) (h1 : l * b * b ≤ c * c) (h2 : (c - 1) * (c - 1) < l * b * b) : IsSearchSize l b (c + 1) := by
  refine ⟨c, h0, h1, fun k hk hle => ?_, rfl⟩
  by_contra hlt
  have : k * k ≤ (c - 1) * (c - 1) := mul_self_le_mul_self hk (by omega)
  omega

/-- No hit, from a check of the naturals below a bound. -/
theorem noHit_of {p g m y : Int} (n : Nat) (hn : m * (m + 1) ≤ n) (h : ∀ k < n, g ^ k % p ≠ y) : HasNoHit p g m y :=
  fun k hk => h k (by omega)

theorem witness_ResetStateHoldsTheResetValues : Config.reference.Ok ∧ cfg3.Ok ∧ (⟨256, 2 ^ 32 - 1, 0, [9]⟩ : Config).Ok ∧
    (⟨3, 2, 0, []⟩ : Config).Ok := by decide

theorem witness_ResetEventRestoresTheResetState : (running (t1 0 0) 1 [.reset]).NextIs .reset [] := by decide

theorem witness_DecodeOfEncodeIsTheCommand : (Instr.ldi 15 (-32768)).wellFormed = true := by decide

theorem witness_EncodeOfDecodeIsTheWord : decode 0x80000F02 = some (.ldi 15 (-32768)) := by decide

theorem witness_IllegalWordsAreExactlyThoseOfTheRule :
    let s := running (t1 0 0) 0x00000100 [.complete]
    s.status.busy = true ∧ s.NextIs .complete [] ∧ decode s.cmd = none := by decide

theorem witness_StepRunsTheDecodedCommand :
    let s := running (t1 0 0) 0x00007601 [.complete]
    s.status.busy = true ∧ decode s.cmd = some (.mov 6 7) ∧ s.NextIs .complete [] ∧ (s.setSchedule []).schedule = [] ∧
      (t1 0 0).status.busy = false := by decide

theorem witness_IdleEngineKeepsEverything :
    (t1 0 0).status.busy = false ∧ (t1 0 0).schedule = [] ∧ ((t1 0 0).setSchedule [.complete]).NextIs .complete [] := by
  decide

theorem witness_EveryIssuedWordCompletes :
    let s := running (t1 0 0) 0xFFFFFFFF [.complete]
    s.status.busy = true ∧ s.NextIs .complete [] := by decide

theorem witness_EveryFiniteRunEndsIdle :
    let s := (t1 0 0).setSchedule [readEvent cfg3 0 0, writeEvent cfg3 1 0x7FFC 1]
    ∀ a, Event.access a ∈ s.schedule → a.Accepted s.cfg := by
  intro s a h
  simp only [s, State.setSchedule, readEvent, writeEvent, List.mem_cons, List.not_mem_nil, or_false,
    Event.access.injEq] at h
  rcases h with rfl | rfl <;> decide

theorem witness_NopOnlyCompletes : (t1 0 0).status.ovr = false := by decide

theorem witness_MovCopiesTheRegister : (t1 (-2 ^ 95) (2 ^ 95 - 1)).Ready := by decide

theorem witness_LdiWritesTheImmediate :
    (t1 0 0).Ready ∧ (Instr.ldi 0 (-32768)).wellFormed = true ∧ (-32768 : Int) < 0 ∧ 1 ≤ 2 ∧ 2 < (t1 0 0).cfg.nw := by decide

theorem witness_ModexpWritesTheSignedPower :
    (let s := vec [2, 0, 0, 0, 0, 0, 0, 0, 0, 0, 0];
      s.Ready ∧ 2 ≤ s.reg regP ∧ 0 ≤ s.reg 10) ∧
    (let s := vec [23, 0, 0, 0, 0, 0, 0, 0, 0, 2, -3];
      s.Ready ∧ 2 ≤ s.reg regP ∧ s.reg 10 < 0 ∧ Invertible (s.reg 9) (s.reg regP)) := by decide

theorem witness_ModmulWritesTheReducedProduct : let s := vec [2]
    s.Ready ∧ 2 ≤ s.reg regP := by decide

theorem witness_ModinvWritesTheInverse :
    let s := vec [2, 0, 0, 0, 0, 0, 0, -1]
    s.Ready ∧ 2 ≤ s.reg regP ∧ Invertible (s.reg 7) (s.reg regP) := by decide

theorem witness_MexpaccMultipliesTheAccumulator :
    let s := vec [23, 0, 0, 0, 0, 0, 3, 0, 2, 0, 0, -1]
    s.Ready ∧ 2 ≤ s.reg regP ∧ (0 ≤ s.reg 11 ∨ Invertible (s.reg 8) (s.reg regP)) := by decide

theorem witness_ModulusBelowTwoIsEParam :
    (vec [1]).reg regP < 2 ∧ Instr.deriveh 6 ∈
      [Instr.modexp 6 7 8, .modmul 6 7 8, .modinv 6 7, .mexpacc 6 7 8, .deriveh 6, .dlog true 6 7] := by decide

theorem witness_MissingInverseIsENoInv :
    (let s := vec [15, 0, 0, 0, 0, 0, 0, 3, -1];
      2 ≤ s.reg regP ∧ s.reg 8 < 0 ∧ ¬ Invertible (s.reg 7) (s.reg regP)) ∧
    (let s := vec [23, 11, 0, 0, 0, 0, -1];
      2 ≤ s.reg regP ∧ s.reg 6 < 0 ∧ ¬ Invertible (s.reg regG) (s.reg regP)) := by decide

theorem witness_CeilingSquareRootIsTheLeast : (0 : Int) ≤ 300 ∧ (0 : Int) ≤ 18 ∧ (300 : Int) ≤ 18 * 18 := by decide

theorem witness_InverseIsTheOnlyOne :
    (2 : Int) ≤ 2 ∧ hasInv (-1) 2 = true ∧ hasInv 3 15 = false ∧ (30 : Int) % 15 = 0 := by decide

theorem witness_PowModIsThePower : (2 : Int) ≤ 2 ∧ (0 : Int) ≤ 0 := by decide

theorem witness_SignedPowersMultiply : (2 : Int) ≤ 15 ∧ Invertible (-2) 15 := by decide

theorem witness_PrimeTestObeysItsLaws : ((0 : Int) ≤ 2 ∧ (2 : Int).toNat.Prime ∧ (1 : Int) < 2 ∧ (2 : Int) ≤ 2) ∧
    (let f : Int → Bool := fun n => decide (2 ≤ n);
      (∀ n : Int, 0 ≤ n → n.toNat.Prime → f n = true) ∧ (∀ n : Int, n < 2 → f n = false)) ∧ InRange cfg3 9 := by
  refine ⟨⟨by decide, Nat.prime_two, by decide, by decide⟩, ⟨fun n _ hp => ?_, fun n hn => ?_⟩, by decide⟩
  · have := hp.two_le
    exact decide_eq_true (by omega)
  · exact decide_eq_false (by omega)

theorem witness_ValidGivesAGeneratorOfOrderQ :
    let s := vec [5, 2, 4, 0, 1, 1]
    (∃ t, exec (.validate false) s = .next t ∧ t.vstatus.valid = true) ∧ (s.reg regQ).toNat.Prime ∧
      IsSearchSize (s.reg regL) (s.reg regB) 2 :=
  ⟨⟨_, rfl, by decide⟩, Nat.prime_two,
    searchSize_of (l := 1) (b := 1) (c := 1) (by decide) (by decide) (by decide)⟩

theorem witness_DerivehWritesAndChecksH :
    (t1 0 0).Ready ∧ 2 ≤ (t1 0 0).reg regP ∧ (0 ≤ (t1 0 0).reg 6 ∨ Invertible ((t1 0 0).reg regG) ((t1 0 0).reg regP)) ∧
    (t1 (-1) 0).Ready ∧ (t1 (-1) 0).reg 6 < 0 ∧ Invertible ((t1 (-1) 0).reg regG) ((t1 (-1) 0).reg regP) := by decide

/-- The search of `big` and of `t1` has m = 3. -/
theorem size_three : IsSearchSize 1 2 3 :=
  searchSize_of (c := 2) (by decide) (by decide) (by decide)

/-- The search of `small` has m = 2. -/
theorem size_two : IsSearchSize 1 1 2 :=
  searchSize_of (c := 1) (by decide) (by decide) (by decide)

/-- The last exponent of the search, e = E = 11: 5^11 mod 23 = 22. -/
theorem witness_DlogReturnsTheLeastPositiveHit :
    (big 22).Ready ∧ (big 22).DlogSearches 3 ∧
      IsLeastHit ((big 22).reg regP) ((big 22).reg regG) 3 ((big 22).reg 7 % (big 22).reg regP) 11 :=
  ⟨by decide, ⟨by decide, by decide, by decide, size_three, by decide, by decide⟩, by unfold IsLeastHit; decide⟩

/-- The target 5^(-10) mod 23 = 18, whose inverse 9 is 5^10. -/
theorem witness_DlogReturnsTheLeastNegativeHit :
    let s := big 18
    s.Ready ∧ s.DlogSearches 3 ∧ HasNoHit (s.reg regP) (s.reg regG) 3 (s.reg 7 % s.reg regP) ∧
      IsInverse (s.reg 7) (s.reg regP) 9 ∧ IsLeastHit (s.reg regP) (s.reg regG) 3 9 10 :=
  ⟨by decide, ⟨by decide, by decide, by decide, size_three, by decide, by decide⟩, noHit_of 12 (by decide) (by decide), by unfold IsInverse; decide,
    by unfold IsLeastHit; decide⟩

/-- Each check of DLOG at the value where it first fails, with every earlier check passed. -/
theorem witness_DlogFailsInTheOrderOfItsChecks_param :
    ((vec [1, 0, 0, 0, 1, 1]).reg regP < 2) ∧ ((vec [2, 0, 0, 0, 0, 1]).reg regL < 1) ∧
    ((vec [2, 0, 0, 0, 1, 0]).reg regB < 1) := by decide

theorem witness_DlogFailsInTheOrderOfItsChecks_table :
    let s := load ⟨3, 2, 0, []⟩ [23, 11, 2, 0, 1, 2]
    2 ≤ s.reg regP ∧ 1 ≤ s.reg regL ∧ 1 ≤ s.reg regB ∧ IsSearchSize (s.reg regL) (s.reg regB) 3 ∧
      s.cfg.tableEntries < (3 : Int) :=
  ⟨by decide, by decide, by decide, size_three, by decide⟩

theorem witness_DlogFailsInTheOrderOfItsChecks_noInv :
    let s := load ⟨3, 3, 0, []⟩ [23, 11, 23, 0, 1, 2]
    2 ≤ s.reg regP ∧ 1 ≤ s.reg regL ∧ 1 ≤ s.reg regB ∧ IsSearchSize (s.reg regL) (s.reg regB) 3 ∧
      3 ≤ (s.cfg.tableEntries : Int) ∧ ¬ Invertible (s.reg regG) (s.reg regP) :=
  ⟨by decide, by decide, by decide, size_three, by decide, by decide⟩

/-- The target 0 has no inverse; the target 5 is outside the group of 2, and so is its inverse 14. -/
theorem witness_DlogFailsInTheOrderOfItsChecks_notFound :
    ((t1 0 0).DlogSearches 3 ∧ HasNoHit ((t1 0 0).reg regP) ((t1 0 0).reg regG) 3 ((t1 0 0).reg 7 % (t1 0 0).reg regP) ∧
      ¬ Invertible ((t1 0 0).reg 7) ((t1 0 0).reg regP)) ∧
    ((t1 0 5).DlogSearches 3 ∧ HasNoHit ((t1 0 5).reg regP) ((t1 0 5).reg regG) 3 ((t1 0 5).reg 7 % (t1 0 5).reg regP) ∧
      IsInverse ((t1 0 5).reg 7) ((t1 0 5).reg regP) 14 ∧ HasNoHit ((t1 0 5).reg regP) ((t1 0 5).reg regG) 3 14) :=
  ⟨⟨⟨by decide, by decide, by decide, size_three, by decide, by decide⟩, noHit_of 12 (by decide) (by decide), by decide⟩,
    ⟨⟨by decide, by decide, by decide, size_three, by decide, by decide⟩, noHit_of 12 (by decide) (by decide), by unfold IsInverse; decide,
      noHit_of 12 (by decide) (by decide)⟩⟩

/-- 2 has order 11 mod 23. -/
theorem order_of_two : orderOf (((2 : Int) : ZMod (23 : Int).toNat)) = 11 := by
  have : Fact (Nat.Prime 11) := ⟨by norm_num⟩
  exact orderOf_eq_prime (by decide) (by decide)

/-- The target 12 = 2^(-1), e = -1 = -bound. -/
theorem witness_DlogReturnsTheTrueExponent :
    let s := small 12
    s.Ready ∧ s.DlogSearches 2 ∧
      s.reg regL * s.reg regB * s.reg regB + (2 * (2 + 1) - 1) < orderOf ((s.reg regG : Int) : ZMod (s.reg regP).toNat) ∧
      IsSignedPower (s.reg regG) (-1) (s.reg regP) (s.reg 7 % s.reg regP) ∧
      -(s.reg regL * s.reg regB * s.reg regB) ≤ -1 ∧ -1 ≤ s.reg regL * s.reg regB * s.reg regB :=
  ⟨by decide, ⟨by decide, by decide, by decide, size_two, by decide, by decide⟩, by
    have h : orderOf (((small 12).reg regG : Int) : ZMod ((small 12).reg regP).toNat) = 11 := order_of_two
    rw [h]; decide, by unfold IsSignedPower IsInverse; decide, by decide, by decide⟩

/-- T1 and the target 13 = 2^(-4), e = -bound: the case that wraps. -/
theorem witness_DlogUnderThePreconditionFlagsTheWrap :
    let s := t1 0 13
    s.Ready ∧ s.DlogSearches 3 ∧
      2 * (s.reg regL * s.reg regB * s.reg regB) + 1 ≤ orderOf ((s.reg regG : Int) : ZMod (s.reg regP).toNat) ∧
      IsSignedPower (s.reg regG) (-4) (s.reg regP) (s.reg 7 % s.reg regP) ∧
      -(s.reg regL * s.reg regB * s.reg regB) ≤ -4 ∧ -4 ≤ s.reg regL * s.reg regB * s.reg regB :=
  ⟨by decide, ⟨by decide, by decide, by decide, size_three, by decide, by decide⟩, by
    have h : orderOf (((t1 0 13).reg regG : Int) : ZMod ((t1 0 13).reg regP).toNat) = 11 := order_of_two
    rw [h]; decide, by unfold IsSignedPower IsInverse; decide, by decide, by decide⟩

theorem witness_ReadsHaveNoSideEffect :
    let a : Access := ⟨7, 0x7FFC, 4, .read⟩
    let s := running (t1 0 0) 0 [.access a]
    a.Accepted s.cfg ∧ a.kind = .read ∧ s.NextIs (.access a) [] := by decide

theorem witness_IdleReadsReturnTheRegisters :
    (t1 0 0).cfg.Ok ∧ (t1 0 0).status.busy = false ∧ 2 < (t1 0 0).cfg.nw := by decide

theorem witness_StatusWordsHaveTheSpecsBits : 31 < 32 := by decide

theorem witness_IdleOperandWriteReplacesOneWord :
    (t1 0 0).cfg.Ok ∧ (t1 0 0).status.busy = false ∧ 2 < (t1 0 0).cfg.nw ∧ 0 ≠ 2 := by decide

theorem witness_IdleCmdWriteIssues : (t1 0 0).status.busy = false := by decide

theorem witness_BusyAccessesAreIgnoredOrDrawn :
    let s := running (t1 0 0) 0 []
    s.cfg.Ok ∧ s.status.busy = true ∧ 2 < s.cfg.nw := by decide

theorem witness_OtherWidthsAndMisalignedAccessesFault :
    ∀ a ∈ [(⟨0, 0x7FFF, 4, .read⟩ : Access), ⟨0, 0, 8, .write 1⟩, ⟨0, 0x12, 1, .read⟩],
      let s := (t1 0 0).setSchedule [.access a]
      s.cfg.base ≤ a.addr ∧ a.addr < s.cfg.base + 0x8000 ∧ (a.bytes ≠ 4 ∨ (a.addr - s.cfg.base) % 4 ≠ 0) ∧
        s.NextIs (.access a) [] := by decide

theorem witness_ReservedOffsetsReadZeroAndIgnoreWrites :
    (∀ off ∈ [0x001C, 0x0FFC], off % 4 = 0 ∧ 0x001C ≤ off ∧ off < 0x1000) ∧
    (∀ off ∈ [0x5000, 0x7FFC], off % 4 = 0 ∧ 0x5000 ≤ off ∧ off < 0x8000) ∧
    (∀ w ∈ [3, 255], (t1 0 0).cfg.nw ≤ w ∧ w < 256 ∧ (0x1000 + 0x400 * (15 : Reg).val + 4 * w) % 4 = 0) := by decide

theorem witness_SetregLeavesTheValue :
    (t1 0 0).cfg.Ok ∧ (t1 0 0).status.busy = false ∧ InRange (t1 0 0).cfg (-2 ^ 95) ∧ InRange (t1 0 0).cfg (2 ^ 95 - 1) := by
  decide

theorem witness_GetregFormsTheValue : (t1 (-2 ^ 95) 0).Ready ∧ (t1 (-2 ^ 95) 0).status.busy = false := by decide

theorem witness_IssueReturnsTheCompletionStatus :
    (t1 0 0).status.busy = false ∧ (Instr.ldi 0 (-32768)).wellFormed = true := by decide

theorem witness_EveryMasterHasTheSameEffect :
    (∃ t, access (t1 0 0) ⟨0, 0x1000, 4, .read⟩ = .next t) ∧ (∃ f, access (t1 0 0) ⟨0, 0x1001, 4, .read⟩ = .fault f) :=
  ⟨⟨_, rfl⟩, ⟨_, rfl⟩⟩

theorem witness_FirstCmdWriteIssuesTheSecondOverruns : (t1 0 0).status.busy = false := by decide

theorem witness_InterruptFollowsCompletionAndEnable :
    (0x00000080#32).getLsbD 7 = true ∧ (0x00000001#32).getLsbD 0 = true ∧ (t1 0 0).status.busy = false := by decide

theorem witness_ConfigurationNeverChanges : step (t1 0 0) = .next (t1 0 0) := rfl

theorem witness_OnlyValidateSetsValid :
    let s := running (t1 0 0) 0x00100020 [.complete]
    ∃ t, step s = .next t ∧ s.vstatus.valid = false ∧ t.vstatus.valid = true := ⟨_, rfl, rfl, by decide⟩

theorem witness_OverrunIsStickyAndMeansADroppedWrite :
    (let s := ((t1 0 0).setStatus Status.reset.overrun).setSchedule [writeEvent cfg3 0 0x10 0x40];
      ∃ t, step s = .next t ∧ s.status.ovr = true ∧ t.status.ovr = false) ∧
    (let s := running (t1 0 0) 0 [writeEvent cfg3 0 0x14 0];
      ∃ t, step s = .next t ∧ s.status.ovr = false ∧ t.status.ovr = true) :=
  ⟨⟨_, rfl, rfl, by decide⟩, ⟨_, rfl, rfl, by decide⟩⟩

theorem witness_RunningCommandIsShieldedFromHosts :
    let a : Access := ⟨0, 0x14, 4, .write 0⟩
    let s := running (t1 0 0) 0x00170002 [.access a]
    s.status.busy = true ∧ s.NextIs (.access a) [] ∧ ∃ t, step s = .next t := ⟨rfl, rfl, _, rfl⟩

theorem witness_EveryStepKeepsTheInvariant :
    let s := running (t1 0 0) 0x00000020 [.complete]
    s.Inv ∧ ∃ t, step s = .next t := ⟨by decide, _, rfl⟩

/-- The smallest group with VALID = 1, and a step that writes P: `ldi p, 7` forgets the validation. -/
theorem witness_EveryStepKeepsValidTrue :
    let s := running ((vec [5, 2, 4, 0, 1, 1]).setVStatus { VStatus.reset with valid := true }) 0x00070002 [.complete]
    s.ValidDescribesRegisters ∧ s.vstatus.valid = true ∧ ∃ t, step s = .next t := by
  refine ⟨fun _ => ⟨?_, fun h => ?_⟩, rfl, _, rfl⟩
  · unfold State.GroupChecksHold; decide
  · cases h

/-- The modulus 3^646: 4 has order 3^645 mod 3^646, a group of more than 2^1022 elements. -/
def hugeP : Nat := 3 ^ 215 * 3 ^ 215 * 3 ^ 216

/-- The order of 4, 3^645. -/
def hugeOrder : Nat := 3 ^ 215 * 3 ^ 215 * 3 ^ 215

/-- The order rule R85, case 3, asks for at least. -/
def fullSize : Nat := 2 ^ 1022

/-- The group of `hugeP` in a block of 33 words, with the target 4. -/
def huge : State := load ⟨33, 2 ^ 20, 0, []⟩ [hugeP, 0, 4, 0, 1, 1, 0, 4]

set_option exponentiation.threshold 2000

/-- A power of 4 in the group of `huge`, by the square-and-multiply of the model. -/
theorem huge_pow (k : Nat) : powMod 4 k hugeP = 1 ↔ ((4 : Int) : ZMod hugeP) ^ k = 1 := by
  rw [powMod_eq' (by decide +kernel), Int.toNat_natCast]
  have h1 : (1 : Int) = 1 % (hugeP : Int) := by decide +kernel
  have : (4 : Int) ^ k ≡ 1 [ZMOD hugeP] ↔ (4 : Int) ^ k % hugeP = 1 := by
    unfold Int.ModEq
    rw [← h1]
  rw [← this, ← ZMod.intCast_eq_intCast_iff]
  push_cast
  rfl

theorem huge_order : orderOf ((4 : Int) : ZMod hugeP) = hugeOrder := by
  have : Fact (Nat.Prime 3) := ⟨Nat.prime_three⟩
  refine orderOf_eq_prime_pow (p := 3) (n := 644) (fun h => ?_) ?_
  · exact absurd ((huge_pow _).2 h) (by decide +kernel)
  · exact (huge_pow _).1 (by decide +kernel)

theorem huge_regs : huge.reg regP = hugeP ∧ huge.reg regG = 4 ∧ huge.reg regL = 1 ∧ huge.reg regB = 1 ∧ huge.reg 7 = 4 := by
  decide +kernel

theorem huge_ready : huge.Ready := by decide +kernel

theorem witness_DlogIsExactForFullSizeGroups :
    huge.Ready ∧ huge.DlogSearches 2 ∧
      fullSize ≤ orderOf ((huge.reg regG : Int) : ZMod (huge.reg regP).toNat) ∧
      2 * (huge.reg regL * huge.reg regB * huge.reg regB) ≤
        orderOf ((huge.reg regG : Int) : ZMod (huge.reg regP).toNat) ∧
      IsSignedPower (huge.reg regG) 1 (huge.reg regP) (huge.reg 7 % huge.reg regP) ∧
      -(huge.reg regL * huge.reg regB * huge.reg regB) ≤ 1 ∧ 1 ≤ huge.reg regL * huge.reg regB * huge.reg regB := by
  obtain ⟨hp, hg, hl, hb, ht⟩ := huge_regs
  have ho : fullSize ≤ hugeOrder := by decide +kernel
  have h2 : (2 : Int) ≤ (hugeOrder : Int) := by decide +kernel
  have h : orderOf ((huge.reg regG : Int) : ZMod (huge.reg regP).toNat) = hugeOrder := by
    rw [hp, hg, Int.toNat_natCast]
    exact huge_order
  rw [h]
  refine ⟨huge_ready, ⟨?_, ?_, ?_, ?_, ?_, ?_⟩, ?_⟩ <;> (try simp only [hp, hg, hl, hb, ht])
  · decide +kernel
  · decide
  · decide
  · exact size_two
  · decide +kernel
  · decide +kernel
  · exact ⟨ho, by simpa only [mul_one] using h2, ⟨fun _ => by decide +kernel, fun h => absurd h (by decide)⟩, by decide, by decide⟩

end Sys2Proof.Machine.Tests
end

section
/-! Proofs of the statements on the integer arithmetic of 00_scope.md: csqrt (rule R12), HasInv and Inv (rule R13), PowMod
(rule R14) and PrimeTest (rule R8). -/

namespace Sys2Proof.Machine

/-- Settles O21: the loop's specification `csqrt_spec`, and the rule's five values by evaluation. -/
theorem ceilingSquareRootIsTheLeast : Obligations.CeilingSquareRootIsTheLeast :=
  ⟨fun _ hn => csqrt_spec hn, by decide⟩

/-- An inverse in [1, p) exists exactly when HasInv says so (rule R13). -/
theorem hasInv_iff_exists_isInverse {a p : Int} (hp : 2 ≤ p) : hasInv a p = true ↔ ∃ x, IsInverse a p x :=
  ⟨fun h => ⟨inv a p, inv_spec hp h⟩, fun ⟨_, _, _, hmul⟩ => hasInv_of_inverse hmul⟩

/-- MODINV reports E_NOINV where HasInv fails (rule R93). -/
theorem modinvValue_of_not_hasInv {a p : Int} (hp : 2 ≤ p) (h : hasInv a p = false) :
    modinvValue p a = .error .noInv := by
  simp [modinvValue, h, show ¬ p < 2 by omega]

/-- A multiple of p >= 2 is not invertible mod p: its gcd with p is p (rule R13). -/
theorem hasInv_eq_false_of_emod_eq_zero {a p : Int} (hp : 2 ≤ p) (h : a % p = 0) : hasInv a p = false := by
  rw [Bool.eq_false_iff, ne_eq, hasInv_iff, h, Int.gcd_zero_left]
  omega

/-- Settles O22: existence is `inv_spec`, uniqueness `inverse_unique`, absence the converse `hasInv_of_inverse`. -/
theorem inverseIsTheOnlyOne : Obligations.InverseIsTheOnlyOne := by
  intro a p hp
  refine ⟨hasInv_iff, fun h => ⟨inv_spec hp h, fun x hx => inverse_unique hx (inv_spec hp h)⟩, fun h => ⟨?_, ?_⟩,
    hasInv_eq_false_of_emod_eq_zero hp⟩
  · intro x hx
    have : hasInv a p = true := (hasInv_iff_exists_isInverse hp).2 ⟨x, hx⟩
    exact Bool.false_ne_true (h.symm.trans this)
  · exact modinvValue_of_not_hasInv hp h

/-- PowMod with exponent 0 is 1 for every base (rule R14). -/
theorem powMod_zero {b p : Int} (hp : 2 ≤ p) : powMod b 0 p = 1 := by
  rw [powMod_eq hp, Int.toNat_zero, pow_zero, Int.emod_eq_of_lt (by omega) (by omega)]

/-- Settles O23, by the specification `powMod_eq` of square and multiply. -/
theorem powModIsThePower : Obligations.PowModIsThePower :=
  fun _ _ _ hp _ => ⟨powMod_eq hp, powMod_zero hp⟩

/-- PrimeTest is 0 below 2 in every configuration (rule R8). -/
theorem primeTest_eq_false_of_lt {c : Config} {n : Int} (hn : n < 2) : primeTest c n = false := by
  rw [Bool.eq_false_iff, ne_eq, primeTest_iff]
  omega

/-- PrimeTest is 1 on every prime in every configuration (rule R8). -/
theorem primeTest_of_prime {c : Config} {n : Int} (h : n.toNat.Prime) : primeTest c n = true :=
  primeTest_iff.2 ⟨by have := h.two_le; omega, .inl h⟩

/-- PrimeTest of the reference configuration is exact primality (rule R8). -/
theorem primeTest_reference_iff {n : Int} (hn : 2 ≤ n) : primeTest Config.reference n = true ↔ n.toNat.Prime := by
  simp [primeTest_iff, Config.reference, hn]

/-- The non-negative numbers a register of `c` holds that the test `f` accepts. -/
def acceptedNumbers (c : Config) (f : Int → Bool) : List Int :=
  ((List.range (2 ^ (c.rw - 1))).map Int.ofNat).filter f

/-- Membership in the accepted numbers, for a number a register holds. -/
theorem mem_acceptedNumbers {c : Config} {f : Int → Bool} {n : Int} (hn : 0 ≤ n) (hr : InRange c n) :
    n ∈ acceptedNumbers c f ↔ f n = true := by
  obtain ⟨k, rfl⟩ := Int.eq_ofNat_of_zero_le hn
  have hk : k < 2 ^ (c.rw - 1) := by exact_mod_cast hr.2
  simp [acceptedNumbers, hk]

/-- A test that obeys the two laws of rule R8 is, on the numbers a register holds, the PrimeTest of the configuration that
accepts what the test accepts. -/
theorem primeTest_acceptedNumbers {c : Config} {f : Int → Bool} (hprime : ∀ n : Int, 0 ≤ n → n.toNat.Prime → f n = true)
    (hlow : ∀ n : Int, n < 2 → f n = false) {n : Int} (hr : InRange c n) :
    primeTest { c with composites := acceptedNumbers c f } n = f n := by
  rcases lt_or_ge n 2 with hn | hn
  · rw [primeTest_eq_false_of_lt hn, hlow n hn]
  · rw [Bool.eq_iff_iff, primeTest_iff, mem_acceptedNumbers (by omega) hr]
    exact ⟨fun ⟨_, h⟩ => h.elim (hprime n (by omega)) id, fun h => ⟨hn, .inr h⟩⟩

/-- Settles O25: the two laws and the reference from `primeTest_iff`; openness by `acceptedNumbers`. -/
theorem primeTestObeysItsLaws : Obligations.PrimeTestObeysItsLaws :=
  ⟨fun _ _ _ h => primeTest_of_prime h, fun _ _ hn => primeTest_eq_false_of_lt hn, fun _ hn => primeTest_reference_iff hn,
    fun c f hprime hlow => ⟨acceptedNumbers c f, fun _ hr => primeTest_acceptedNumbers hprime hlow hr⟩⟩

end Sys2Proof.Machine
end

section
/-! SUPPORT. What one event does: the engine's step, an access that answers, a write of one word, and what each leaves of
the block (10_state.md rule R17, 20_memory.md rules R40, R43 and R47). -/

namespace Sys2Proof.Machine

/-- With no event left the step is the engine's (log entry 2). -/
theorem step_of_nil {s : State} (h : s.schedule = []) : step s = engineStep s := by
  simp only [step, nextStep, h]

/-- With an event left the step is that event's, taken off the schedule (rule R47). -/
theorem step_of_cons {s : State} {e : Event} {rest : List Event} (h : s.schedule = e :: rest) :
    step s = runEvent (s.setSchedule rest) e := by
  simp only [step, nextStep, h]

/-- While a command runs the engine's step is its completion (rule R17). -/
theorem engineStep_of_busy {s : State} (h : s.status.busy = true) : engineStep s = completion s := by
  simp [engineStep, h]

/-- The completion of a latch that decodes runs the command (rule R59). -/
theorem completion_of_decode {s : State} {i : Instr} (h : decode s.cmd = some i) : completion s = exec i s := by
  simp only [completion, h]

/-- An access the block answers is a host read or a host write, and nothing else. -/
theorem access_cases {s t : State} {a : Access} (h : access s a = .next t) :
    (∃ host addr off, t = s.hostRead host addr off) ∨ ∃ off v, t = s.hostWrite off v := by
  unfold access at h
  split at h
  · cases h
  · split at h
    · cases h
    · split at h
      · cases h; exact .inl ⟨_, _, _, rfl⟩
      · cases h; exact .inr ⟨_, _, rfl⟩

/-- A 32-bit write of an aligned offset of the window is the host write there (rules R36 and R40). -/
theorem access_write {s : State} {host off : Nat} {v : Word} (hoff : off < windowBytes) (hal : off % 4 = 0) :
    access s ⟨host, s.cfg.base + off, 4, .write v⟩ = .next (s.hostWrite off v) := by
  simp [access, hoff, hal]

/-- The step of a scheduled write is the host write on the state with that event taken off (rule R47). -/
theorem step_writeEvent (s : State) (host : Nat) {off : Nat} (v : Word) (rest : List Event) (hoff : off < windowBytes)
    (hal : off % 4 = 0) :
    step (s.setSchedule (writeEvent s.cfg host off v :: rest)) = .next ((s.setSchedule rest).hostWrite off v) := by
  rw [step_of_cons (s := s.setSchedule _) rfl]
  exact access_write (s := s.setSchedule rest) hoff hal

/-- Taking an event off the schedule leaves the block as it is. -/
theorem State.popped_sameBlock (s : State) : s.SameBlock s.popped := ⟨rfl, rfl, rfl, rfl, rfl, rfl⟩

/-- A host read leaves the block as it is (rule R43). -/
theorem State.hostRead_sameBlock (s : State) (host addr off : Nat) : s.SameBlock (s.hostRead host addr off) := by
  obtain ⟨v, h | h⟩ := hostRead_cases s host addr off <;> rw [h] <;> exact ⟨rfl, rfl, rfl, rfl, rfl, rfl⟩

end Sys2Proof.Machine
end

section
/-! Proofs of the statements on what every step keeps: the configuration (10_state.md rule R18) and the invariant (rules
R19, R22 and R27). -/

namespace Sys2Proof.Machine

/-- No command writes the configuration (rule R18). -/
theorem CommandEffect.cfg_eq {s u : State} (h : CommandEffect s u) : u.cfg = s.cfg := by
  rcases h with rfl | ⟨rd, v, rfl⟩ | ⟨rd, v, n, x, rfl⟩ | ⟨d, rfl⟩ | ⟨h, r, rfl⟩
  · rfl
  · exact State.writeDest_cfg ..
  · exact State.writeDest_cfg ..
  · rfl
  · rfl

/-- No host write changes the configuration (rule R18). -/
theorem hostWrite_cfg (s : State) (off : Nat) (v : Word) : (s.hostWrite off v).cfg = s.cfg := by
  rcases hostWrite_cases s off v with h | h | h | ⟨-, h⟩ | ⟨-, h⟩ | ⟨-, k, w, h⟩ <;> rw [h]
  · rfl
  · rfl
  · rfl
  · rfl
  · exact State.writeDest_cfg ..

/-- No step changes the configuration (rule R18). -/
theorem step_cfg {s t : State} (h : step s = .next t) : t.cfg = s.cfg := by
  rcases step_cases h with ⟨-, rfl⟩ | ⟨-, e, rfl⟩ | ⟨-, u, hu, rfl⟩ | ⟨host, addr, off, rfl⟩ | ⟨off, v, rfl⟩ | rfl
  · rfl
  · rfl
  · exact hu.cfg_eq
  · exact (s.popped.hostRead_sameBlock host addr off).1
  · exact hostWrite_cfg ..
  · rfl

/-- What CFG0 reads is a constant of the configuration (rule R25). -/
theorem windowWord_cfg0 (s : State) : s.windowWord 0x0004 = (BitVec.ofNat 16 s.cfg.nw).setWidth 32 := rfl

/-- What CFG1 reads is a constant of the configuration (rule R25). -/
theorem windowWord_cfg1 (s : State) : s.windowWord 0x0008 = BitVec.ofNat 32 s.cfg.tableEntries := rfl

/-- Settles O52, by `step_cfg`: the two words read are functions of the configuration. -/
theorem configurationNeverChanges : Obligations.ConfigurationNeverChanges := by
  intro s t h
  have hc := step_cfg h
  simp only [windowWord_cfg0, windowWord_cfg1, hc, and_self]

/-- A register write leaves every register in range: it holds the integer of a pattern (rule R19). -/
theorem State.RegsInRange.setReg {s : State} (h : s.RegsInRange) (i : Reg) (v : Int) : (s.setReg i v).RegsInRange := by
  intro j
  rw [State.setReg_reg]
  split
  · exact sext_inRange ..
  · exact h j

/-- The destination write of a command leaves every register in range (rules R19 and R22). -/
theorem State.RegsInRange.writeDest {s : State} (h : s.RegsInRange) (rd : Reg) (v : Int) :
    (s.writeDest rd v).RegsInRange := by
  intro j
  rw [State.writeDest, State.touchParam_cfg, State.touchParam_reg]
  exact h.setReg rd v j

/-- The writes of a successful command leave every register in range (rule R22). -/
theorem CommandEffect.regsInRange {s u : State} (h : CommandEffect s u) (hs : s.RegsInRange) : u.RegsInRange := by
  rcases h with rfl | ⟨rd, v, rfl⟩ | ⟨rd, v, n, x, rfl⟩ | ⟨d, rfl⟩ | ⟨h, r, rfl⟩
  · exact hs
  · exact hs.writeDest rd v
  · exact hs.writeDest rd v
  · exact hs
  · exact hs.setReg regH h

/-- A state with every register 0 has them in range (rule R35). -/
theorem regsInRange_of_zero {s : State} (h : ∀ i : Reg, s.reg i = 0) : s.RegsInRange := fun i => by
  have : (0 : Int) < 2 ^ (s.cfg.rw - 1) := by positivity
  rw [h i]
  exact ⟨by omega, this⟩

/-- A successful completion is coherent when NEGHIT and EXCEEDS come with FOUND (rules R83 and R99). -/
theorem Status.finished_coherent {t : Status} (hn : t.neghit = true → t.found = true)
    (hx : t.exceeds = true → t.found = true) : t.finished.Coherent := by
  simpa [Status.Coherent] using And.intro hn hx

/-- An error completion of a running command is coherent: BUSY excluded DONE, and so FOUND was 0 (rule R100). -/
theorem Status.Coherent.failed {t : Status} (h : t.Coherent) (hb : t.busy = true) (e : ErrorCode) :
    (t.failed e).Coherent := by
  obtain ⟨hbusy, hdone, -, -, hneg, hexc⟩ := h
  have hf : t.found = false := (hdone (hbusy hb)).2
  simpa [Status.Coherent, hf] using And.intro hneg hexc

/-- Issue clears every outcome field (rule R44). -/
theorem Status.issued_coherent (t : Status) : t.issued.Coherent := by simp [Status.Coherent]

/-- The writes of a successful command leave NEGHIT and EXCEEDS with FOUND only (rule R83). -/
theorem CommandEffect.flags_with_found {s u : State} (h : CommandEffect s u) (hs : s.status.Coherent) :
    (u.status.neghit = true → u.status.found = true) ∧ (u.status.exceeds = true → u.status.found = true) := by
  obtain ⟨-, -, -, -, hflags⟩ := hs
  rcases h with rfl | ⟨rd, v, rfl⟩ | ⟨rd, v, n, x, rfl⟩ | ⟨d, rfl⟩ | ⟨h, r, rfl⟩
  · exact hflags
  · simpa using hflags
  · simp
  · exact hflags
  · exact hflags

/-- The invariant speaks of the block alone. -/
theorem State.Inv.of_sameBlock {s t : State} (h : s.Inv) (hb : s.SameBlock t) : t.Inv := by
  obtain ⟨hcfg, hregs, -, hstatus, -, -⟩ := hb
  simpa only [State.Inv, State.RegsInRange, State.reg, hcfg, hregs, hstatus] using h

/-- A successful completion keeps the invariant (rules R22 and R99). -/
theorem State.Inv.finished {s u : State} (h : s.Inv) (hu : CommandEffect s u) :
    (u.setStatus u.status.finished).Inv := by
  obtain ⟨hok, hregs, hcoh⟩ := h
  have hf := hu.flags_with_found hcoh
  exact ⟨hu.cfg_eq ▸ hok, hu.regsInRange hregs, Status.finished_coherent hf.1 hf.2⟩

/-- A host write keeps the invariant (rules R26, R27, R38, R44 and R45). -/
theorem State.Inv.hostWrite {s : State} (h : s.Inv) (off : Nat) (v : Word) : (s.hostWrite off v).Inv := by
  obtain ⟨hok, hregs, hcoh⟩ := h
  refine ⟨(hostWrite_cfg s off v).symm ▸ hok, ?_⟩
  rcases hostWrite_cases s off v with e | e | e | ⟨-, e⟩ | ⟨-, e⟩ | ⟨-, k, w, e⟩ <;> rw [e]
  · exact ⟨hregs, hcoh⟩
  · exact ⟨hregs, hcoh⟩
  · exact ⟨hregs, hcoh⟩
  · exact ⟨hregs, hcoh⟩
  · exact ⟨hregs, Status.issued_coherent _⟩
  · exact ⟨hregs.writeDest k _, by simpa [State.writeOperandWord] using hcoh⟩

/-- STATUS with every field 0 is coherent (rule R35). -/
theorem Status.reset_coherent : Status.reset.Coherent := by decide

/-- Reset reaches the invariant whenever the parameters are legal (rule R114). -/
theorem resetBlock_inv {s : State} (h : s.cfg.Ok) : s.resetBlock.Inv :=
  ⟨h, regsInRange_of_zero s.resetBlock_reg, Status.reset_coherent⟩

/-- Settles O57, by the kinds of step of `step_cases`. -/
theorem everyStepKeepsTheInvariant : Obligations.EveryStepKeepsTheInvariant := by
  intro s t hs h
  have hp : s.popped.Inv := hs.of_sameBlock s.popped_sameBlock
  rcases step_cases h with ⟨-, rfl⟩ | ⟨hb, e, rfl⟩ | ⟨-, u, hu, rfl⟩ | ⟨host, addr, off, rfl⟩ | ⟨off, v, rfl⟩ | rfl
  · exact hp
  · obtain ⟨hok, hregs, hcoh⟩ := hs
    exact ⟨hok, hregs, hcoh.failed hb e⟩
  · exact hp.finished hu
  · exact hp.of_sameBlock (State.hostRead_sameBlock ..)
  · exact hp.hostWrite off v
  · exact resetBlock_inv hp.1

end Sys2Proof.Machine
end

section
/-! Proofs of the statements on VALID: it describes the register values of now, from reset on, and only a VALIDATE sets it
(10_state.md rules R29, R30 and R35, 41_validator.md rules R72 and R73). -/

namespace Sys2Proof.Machine

/-- GORD and HORD say that v^Q = 1 (mod P) with P >= 2 and Q >= 0 (rule R72). -/
theorem checkOrder_iff {p q v : Int} : checkOrder p q v = true ↔ 2 ≤ p ∧ 0 ≤ q ∧ v ^ q.toNat % p = 1 := by
  simp only [checkOrder, modok, Bool.and_eq_true, decide_eq_true_eq, beq_iff_eq, and_assoc]
  exact and_congr_right fun hp => by rw [powMod_eq' hp]

/-- A divisor test is divisibility (rule R11). -/
theorem divides_iff {d a : Int} : divides d a = true ↔ d ∣ a := by
  rw [divides, beq_iff_eq, Int.dvd_iff_emod_eq_zero]

/-- HF1 says that H is not 0 and does not divide P - 1 (rule R72). -/
theorem checkFilter1_iff {p h : Int} : checkFilter1 p h = true ↔ h ≠ 0 ∧ ¬ h ∣ p - 1 := by
  simp [checkFilter1, ← divides_iff]

/-- HF2 gives an inverse of H mod P that does not divide P - 1 (rules R13 and R72). -/
theorem exists_inverse_of_checkFilter2 {p h : Int} (hf : checkFilter2 p h = true) :
    ∃ x : Int, 1 ≤ x ∧ x < p ∧ h * x % p = 1 ∧ ¬ x ∣ p - 1 := by
  simp only [checkFilter2, modok, Bool.and_eq_true, decide_eq_true_eq, Bool.not_eq_true', ← Bool.not_eq_true,
    divides_iff] at hf
  obtain ⟨⟨hp, hinv⟩, hdvd⟩ := hf
  obtain ⟨hlo, hhi, hmul⟩ := inv_spec hp hinv
  exact ⟨inv h p, hlo, hhi, hmul, hdvd⟩

/-- With VALID = 0 there is nothing to describe. -/
theorem validDescribesRegisters_of_valid_eq_false {s : State} (h : s.vstatus.valid = false) :
    s.ValidDescribesRegisters :=
  fun hv => absurd (h.symm.trans hv) Bool.false_ne_true

/-- What VALID describes depends on the configuration, on VSTATUS and on R0..R5 alone (rules R20 and R72). -/
theorem State.ValidDescribesRegisters.congr {s t : State} (h : s.ValidDescribesRegisters) (hc : t.cfg = s.cfg)
    (hv : t.vstatus = s.vstatus) (hr : ∀ j : Reg, j ≤ 5 → t.reg j = s.reg j) : t.ValidDescribesRegisters := by
  unfold State.ValidDescribesRegisters State.GroupChecksHold State.DamgardChecksHold
  rw [hc, hv, hr regP (by decide), hr regQ (by decide), hr regG (by decide), hr regH (by decide), hr regL (by decide),
    hr regB (by decide)]
  exact h

/-- What VALID describes is of the block alone. -/
theorem State.ValidDescribesRegisters.of_sameBlock {s t : State} (h : s.ValidDescribesRegisters)
    (hb : s.SameBlock t) : t.ValidDescribesRegisters := by
  obtain ⟨hcfg, hregs, -, -, -, hvstatus⟩ := hb
  exact h.congr hcfg hvstatus fun j _ => by rw [State.reg, State.reg, hregs]

/-- A new STATUS leaves VALID true of the registers. -/
theorem State.ValidDescribesRegisters.setStatus {s : State} (h : s.ValidDescribesRegisters) (t : Status) :
    (s.setStatus t).ValidDescribesRegisters := h.congr rfl rfl fun _ _ => rfl

/-- A destination write clears VALID or leaves R0..R5 alone (rule R30). -/
theorem State.ValidDescribesRegisters.writeDest {s : State} (h : s.ValidDescribesRegisters) (rd : Reg) (v : Int) :
    (s.writeDest rd v).ValidDescribesRegisters := by
  by_cases hrd : rd ≤ 5
  · exact validDescribesRegisters_of_valid_eq_false (by simp [hrd])
  · refine h.congr (s.writeDest_cfg rd v) (by simp [hrd]) fun j hj => ?_
    rw [State.writeDest_reg, if_neg fun (e : j = rd) => hrd (e ▸ hj)]

/-- VALIDATE leaves VALID true of the registers: it sets VALID only when every required check holds (rule R73). -/
theorem validated_describes (s : State) (d : Bool) :
    (s.setVStatus (validated s.cfg d (s.reg regP) (s.reg regQ) (s.reg regG) (s.reg regH) (s.reg regL) (s.reg regB)
      s.vstatus)).ValidDescribesRegisters := by
  intro hv
  simp only [State.setVStatus_vstatus, validated, checkSafe, checkRange, checkNotOne, checkPositive, checkPrecond,
    Bool.and_eq_true, Bool.or_eq_true, Bool.not_eq_true', beq_iff_eq, bne_iff_ne, decide_eq_true_eq, checkOrder_iff,
    checkFilter1_iff] at hv
  obtain ⟨⟨⟨⟨⟨⟨⟨⟨⟨hsafe, hpp⟩, hqp⟩, hg0, hgp⟩, hg1⟩, -, -, hgord⟩, hl⟩, hb⟩, hpre⟩, hdam⟩ := hv
  refine ⟨⟨hsafe, hpp, hqp, hg0, hgp, hg1, hgord, hl, hb, hpre⟩, fun hd => ?_⟩
  obtain ⟨⟨⟨⟨⟨hh0, hhp⟩, hh1⟩, -, -, hhord⟩, hne, hdvd⟩, hf2⟩ := hdam.resolve_left (ne_true_of_eq_false · hd)
  exact ⟨hh0, hhp, hh1, hhord, hne, hdvd, exists_inverse_of_checkFilter2 hf2⟩

/-- The writes of a successful command leave VALID true of the registers (rules R30, R73 and R75). -/
theorem CommandEffect.validDescribesRegisters {s u : State} (h : CommandEffect s u) (hs : s.ValidDescribesRegisters) :
    u.ValidDescribesRegisters := by
  rcases h with rfl | ⟨rd, v, rfl⟩ | ⟨rd, v, n, x, rfl⟩ | ⟨d, rfl⟩ | ⟨h, r, rfl⟩
  · exact hs
  · exact hs.writeDest rd v
  · exact (hs.writeDest rd v).setStatus _
  · exact validated_describes s d
  · exact validDescribesRegisters_of_valid_eq_false rfl

/-- A host write leaves VALID true of the registers (rules R30 and R38). -/
theorem State.ValidDescribesRegisters.hostWrite {s : State} (h : s.ValidDescribesRegisters) (off : Nat) (v : Word) :
    (s.hostWrite off v).ValidDescribesRegisters := by
  rcases hostWrite_cases s off v with e | e | e | ⟨-, e⟩ | ⟨-, e⟩ | ⟨-, k, w, e⟩ <;> rw [e]
  · exact h
  · exact h.congr rfl rfl fun _ _ => rfl
  · exact h.setStatus _
  · exact h.setStatus _
  · exact h.congr rfl rfl fun _ _ => rfl
  · exact h.writeDest k _

/-- Settles O58, by the kinds of step of `step_cases`. -/
theorem everyStepKeepsValidTrue : Obligations.EveryStepKeepsValidTrue := by
  intro s t hs h
  have hp : s.popped.ValidDescribesRegisters := hs.of_sameBlock s.popped_sameBlock
  rcases step_cases h with ⟨-, rfl⟩ | ⟨-, e, rfl⟩ | ⟨-, u, hu, rfl⟩ | ⟨host, addr, off, rfl⟩ | ⟨off, v, rfl⟩ | rfl
  · exact hp
  · exact hp.setStatus _
  · exact (hu.validDescribesRegisters hp).setStatus _
  · exact hp.of_sameBlock (State.hostRead_sameBlock ..)
  · exact hp.hostWrite off v
  · exact validDescribesRegisters_of_valid_eq_false rfl

/-- Settles O56: every register of the reset state is 0, and VALID is 0. -/
theorem resetMeetsTheInvariants : Obligations.ResetMeetsTheInvariants :=
  ⟨⟨by decide, regsInRange_of_zero (State.resetOf_reg _), Status.reset_coherent⟩,
    validDescribesRegisters_of_valid_eq_false rfl, rfl, rfl, rfl⟩

/-- A destination write never sets VALID (rule R30). -/
theorem writeDest_valid_eq_false {s : State} (h : s.vstatus.valid = false) (rd : Reg) (v : Int) :
    (s.writeDest rd v).vstatus.valid = false := by
  rw [State.writeDest_vstatus]
  split
  · rfl
  · exact h

/-- The end of a command that computes a result and then writes sets VALID only when the writes do (rule R98). -/
theorem conclude_map_valid_eq_false {α : Type} {s t : State} (r : Except ErrorCode α) {f : α → State}
    (h : conclude s (r.map f) = .next t) (hs : s.vstatus.valid = false) (hf : ∀ a, (f a).vstatus.valid = false) :
    t.vstatus.valid = false := by
  cases r with
  | ok a => cases h; exact hf a
  | error e => cases h; exact hs

/-- No command but VALIDATE sets VALID (rules R29 and R30). -/
theorem exec_valid_eq_false {i : Instr} {s t : State} (h : exec i s = .next t) (hs : s.vstatus.valid = false)
    (hi : ∀ d, i ≠ .validate d) : t.vstatus.valid = false := by
  have hdest := writeDest_valid_eq_false hs
  cases i with
  | nop => cases h; exact hs
  | mov rd ra => cases h; exact hdest rd _
  | ldi rd imm => cases h; exact hdest rd _
  | modexp rd ra rb => exact conclude_map_valid_eq_false _ h hs (hdest rd)
  | modmul rd ra rb => exact conclude_map_valid_eq_false _ h hs (hdest rd)
  | modinv rd ra => exact conclude_map_valid_eq_false _ h hs (hdest rd)
  | mexpacc rd ra rb => exact conclude_map_valid_eq_false _ h hs (hdest rd)
  | validate d => exact absurd rfl (hi d)
  | deriveh ra => exact conclude_map_valid_eq_false _ h hs fun _ => rfl
  | dlog neg rd ra => exact conclude_map_valid_eq_false _ h hs fun hit => hdest rd hit.value

/-- A command ends with BUSY = 0 and DONE = 1 (rules R98 to R100). -/
theorem exec_busy_done {i : Instr} {s t : State} (h : exec i s = .next t) :
    t.status.busy = false ∧ t.status.done = true := by
  rcases exec_shape i s with ⟨e, hx⟩ | ⟨u, -, hx⟩ <;> rw [hx] at h <;> cases h <;> exact ⟨rfl, rfl⟩

/-- The engine sets VALID only by completing a VALIDATE (rules R17, R29 and R60). -/
theorem engineStep_sets_valid {s t : State} (h : engineStep s = .next t) (hs : s.vstatus.valid = false)
    (ht : t.vstatus.valid = true) :
    s.status.busy = true ∧ (∃ d, decode s.cmd = some (.validate d)) ∧ t.status.busy = false ∧ t.status.done = true := by
  have hne : t.vstatus.valid ≠ false := ne_false_of_eq_true ht
  cases hb : s.status.busy with
  | false =>
    rw [engineStep, hb] at h
    cases h
    exact absurd hs hne
  | true =>
    rw [engineStep_of_busy hb] at h
    cases hd : decode s.cmd with
    | none =>
      rw [completion, hd] at h
      cases h
      exact absurd hs hne
    | some i =>
      rw [completion_of_decode hd] at h
      have hi : ∃ d, i = .validate d := by
        by_contra hno
        exact hne (exec_valid_eq_false h hs fun d e => hno ⟨d, e⟩)
      obtain ⟨d, rfl⟩ := hi
      exact ⟨rfl, ⟨d, rfl⟩, exec_busy_done h⟩

/-- No host access sets VALID (rules R29 and R30). -/
theorem access_valid_eq_false {s t : State} {a : Access} (h : access s a = .next t) (hs : s.vstatus.valid = false) :
    t.vstatus.valid = false := by
  rcases access_cases h with ⟨host, addr, off, rfl⟩ | ⟨off, v, rfl⟩
  · obtain ⟨-, -, -, -, -, hv⟩ := s.hostRead_sameBlock host addr off
    rw [hv, hs]
  · rcases hostWrite_cases s off v with e | e | e | ⟨-, e⟩ | ⟨-, e⟩ | ⟨-, k, w, e⟩ <;> rw [e]
    · exact hs
    · exact hs
    · exact hs
    · exact hs
    · exact hs
    · exact writeDest_valid_eq_false hs k _

/-- Settles O53, by the event of the step: an access and a reset leave VALID = 0, the engine's step is
`engineStep_sets_valid`. -/
theorem onlyValidateSetsValid : Obligations.OnlyValidateSetsValid := by
  intro s t h hs ht
  have hne : t.vstatus.valid ≠ false := ne_false_of_eq_true ht
  cases hsch : s.schedule with
  | nil =>
    rw [step_of_nil hsch] at h
    obtain ⟨hb, hd, hend⟩ := engineStep_sets_valid h hs ht
    exact ⟨hb, hd, .inl rfl, hend⟩
  | cons e rest =>
    rw [step_of_cons hsch] at h
    cases e with
    | access a => exact absurd (access_valid_eq_false h hs) hne
    | reset => cases h; exact absurd rfl hne
    | complete =>
      obtain ⟨hb, hd, hend⟩ := engineStep_sets_valid h hs ht
      exact ⟨hb, hd, .inr rfl, hend⟩

end Sys2Proof.Machine
end

section
/-! Proofs of the statements on the words software reads and writes and on the step that runs a command: the bits of CTRL,
STATUS and VSTATUS (10_state.md rules R26, R27 and R29), the reset values (rule R35), the writes of control words, and the
step of a running command (rule R17). -/

namespace Sys2Proof.Machine

/-- Bit n of a word with one bit. -/
theorem bitAt_getLsbD (k : Nat) (b : Bool) {n : Nat} (hn : n < 32) : (bitAt k b).getLsbD n = (decide (n = k) && b) := by
  cases b
  · simp [bitAt]
  · simp [bitAt, hn, eq_comm]

/-- The word whose bits from bit k up are the flags of a list. -/
def flagsWord (k : Nat) : List Bool → Word
  | [] => 0
  | b :: bs => bitAt k b ||| flagsWord (k + 1) bs

/-- The bits of a word of flags: below bit k they are 0, from there the list's. -/
theorem flagsWord_getLsbD (bs : List Bool) : ∀ (k : Nat) {n : Nat}, n < 32 →
    (flagsWord k bs).getLsbD n = (decide (k ≤ n) && bs.getD (n - k) false) := by
  induction bs with
  | nil => intro k n hn; simp [flagsWord]
  | cons b bs ih =>
    intro k n hn
    rw [flagsWord, BitVec.getLsbD_or, bitAt_getLsbD k b hn, ih (k + 1) hn]
    rcases lt_trichotomy n k with h | rfl | h
    · simp [show ¬ n = k by omega, show ¬ k + 1 ≤ n by omega, show ¬ k ≤ n by omega]
    · simp
    · obtain ⟨m, rfl⟩ : ∃ m, n = k + 1 + m := ⟨n - (k + 1), by omega⟩
      simp [show k + 1 + m - k = m + 1 by omega, show k ≤ k + 1 + m by omega, show ¬ k + 1 + m = k by omega]

/-- The bits of a word of flags from bit 0 up. -/
theorem flagsWord_zero_getLsbD (bs : List Bool) {n : Nat} (hn : n < 32) :
    (flagsWord 0 bs).getLsbD n = bs.getD n false := by
  simp [flagsWord_getLsbD bs 0 hn]

/-- The ECODE field of a code, at [11:8], as flags (rules R27 and R101). -/
theorem ecodeBits_eq_flagsWord (o : Option ErrorCode) :
    (ecodeBits o).setWidth 32 <<< 8 = flagsWord 8 [(ecodeBits o).getLsbD 0, (ecodeBits o).getLsbD 1,
      (ecodeBits o).getLsbD 2, (ecodeBits o).getLsbD 3] := by
  rcases o with - | e
  · decide
  · cases e <;> decide

/-- STATUS as flags: the eight one-bit fields, then ECODE (rule R27). -/
theorem Status.toWord_eq_flagsWord (t : Status) :
    t.toWord = flagsWord 0 ([t.busy, t.done, t.err, t.found, t.neghit, t.exceeds, t.ovr, t.irqp] ++
      [(ecodeBits t.ecode).getLsbD 0, (ecodeBits t.ecode).getLsbD 1, (ecodeBits t.ecode).getLsbD 2,
        (ecodeBits t.ecode).getLsbD 3]) := by
  rw [Status.toWord, ecodeBits_eq_flagsWord]
  simp [flagsWord, BitVec.or_assoc]

/-- CTRL as flags (rule R26). -/
theorem Ctrl.toWord_eq_flagsWord (c : Ctrl) : c.toWord = flagsWord 0 [c.ie] := by
  simp [Ctrl.toWord, flagsWord]

/-- VSTATUS as flags (rule R29). -/
theorem VStatus.toWord_eq_flagsWord (v : VStatus) :
    v.toWord = flagsWord 0 [v.valid, v.safe, v.pprime, v.qprime, v.grng, v.gne1, v.gord, v.lpos, v.bpos, v.precond,
      v.dmode, v.hrng, v.hne1, v.hord, v.hf1, v.hf2, v.rrng, v.hok] := by
  simp [VStatus.toWord, flagsWord, BitVec.or_assoc]

/-- Settles O39: each word is a word of flags, whose bits are `flagsWord_zero_getLsbD`; the four bits of each code by
evaluation. -/
theorem statusWordsHaveTheSpecsBits : Obligations.StatusWordsHaveTheSpecsBits := by
  refine ⟨fun c n hn => ?_, fun t n hn => ?_, fun v n hn => ?_⟩
  · rw [Ctrl.toWord_eq_flagsWord, flagsWord_zero_getLsbD _ hn]
  · rw [Status.toWord_eq_flagsWord, flagsWord_zero_getLsbD _ hn]
    congr 2
    rcases t.ecode with - | e
    · rfl
    · cases e <;> rfl
  · rw [VStatus.toWord_eq_flagsWord, flagsWord_zero_getLsbD _ hn]

/-- CFG0 reads NW where NW fits its 16-bit field (rules R6 and R25). -/
theorem windowWord_cfg0_of_ok {s : State} (h : s.cfg.Ok) : s.windowWord 0x0004 = BitVec.ofNat 32 s.cfg.nw := by
  obtain ⟨-, hnw, -, -⟩ := h
  rw [windowWord_cfg0]
  apply BitVec.eq_of_toNat_eq
  rw [BitVec.toNat_setWidth, BitVec.toNat_ofNat, BitVec.toNat_ofNat]
  omega

/-- Settles O1: the registers by `State.resetOf_reg`, the words by evaluation, CFG0 and CFG1 by the parameters. -/
theorem resetStateHoldsTheResetValues : Obligations.ResetStateHoldsTheResetValues := by
  refine ⟨fun c => ⟨State.resetOf_reg c, ?_, ?_, rfl, rfl, rfl, ?_, rfl, rfl, fun hok => ⟨?_, ?_⟩⟩, rfl, rfl, rfl⟩
  · exact show Ctrl.toWord ⟨false⟩ = 0 by decide
  · exact show Status.reset.toWord = 0 by decide
  · exact show VStatus.reset.toWord = 0 by decide
  · exact windowWord_cfg0_of_ok (s := State.resetOf c) hok
  · exact windowWord_cfg1 (State.resetOf c)

/-- Settles O43: each write is one step of `step_writeEvent`, and the place of its offset says what it writes. -/
theorem controlWritesTakeEffectAnyTime : Obligations.ControlWritesTakeEffectAnyTime := by
  intro s host v rest
  refine ⟨?_, ?_, fun off hoff => ?_⟩
  · exact step_writeEvent s host v rest (by decide) rfl
  · exact step_writeEvent s host v rest (by decide) rfl
  · simp only [List.mem_cons, List.not_mem_nil, or_false] at hoff
    rcases hoff with rfl | rfl | rfl | rfl <;> exact step_writeEvent s host v rest (by decide) rfl

/-- The completion of a running command, scheduled next, is its meaning on the state with that event taken off (rules R17
and R59). -/
theorem step_complete_of_decode {s : State} {i : Instr} {rest : List Event} (hb : s.status.busy = true)
    (hd : decode s.cmd = some i) (hs : s.NextIs .complete rest) : step s = exec i (s.setSchedule rest) := by
  rw [step_of_cons hs, runEvent, engineStep_of_busy (s := s.setSchedule rest) hb,
    completion_of_decode (s := s.setSchedule rest) hd]

/-- A write to CMD while idle issues the word (rule R44). -/
theorem hostWrite_cmd_of_idle {s : State} (h : s.status.busy = false) (w : Word) :
    s.hostWrite 0x0014 w = s.issue w := by
  simp [State.hostWrite, placeAt, h]

/-- Settles O8: the running command by `step_complete_of_decode` or, with no event left, by the engine's step; the issuing
write by `step_writeEvent`. -/
theorem stepRunsTheDecodedCommand : Obligations.StepRunsTheDecodedCommand := by
  refine ⟨fun s i hb hd => ⟨fun rest hs => step_complete_of_decode hb hd hs, fun hs => ?_⟩,
    fun s i w host rest hb hd => ⟨?_, ?_⟩⟩
  · rw [step_of_nil hs, engineStep_of_busy hb, completion_of_decode hd]
  · have hw := step_writeEvent s host (off := 0x0014) w (.complete :: rest) (by decide) rfl
    rw [hostWrite_cmd_of_idle (s := s.setSchedule (.complete :: rest)) hb] at hw
    exact run_succ 0 hw
  · exact step_complete_of_decode (s := (s.setSchedule (.complete :: rest)).issue w) rfl hd rfl

end Sys2Proof.Machine
end

section
/-! SUPPORT. What an access to each place of the window does (20_memory.md rules R37 to R45): the reads that return a value
and those that return a draw, the reserved offsets, and the writes of CMD and of an operand word, idle and busy. -/

namespace Sys2Proof.Machine

/-- Words 0..255 of an operand register stand in the window (rules R36 and R37). -/
theorem opword_lt_windowBytes (k : Reg) {w : Nat} (hw : w < 256) : opword k w < windowBytes := by
  have hk := k.isLt
  unfold opword windowBytes
  omega

/-- Operand words are aligned (rule R37). -/
theorem opword_mod_four (k : Reg) (w : Nat) : opword k w % 4 = 0 := by
  unfold opword
  omega

/-- Past the control words a place is reserved unless it is a mapped operand word (rule R37). -/
theorem placeAt_eq_reserved {nw off : Nat} (hlo : 0x001C ≤ off)
    (hword : 0x1000 ≤ off → off < 0x5000 → nw ≤ (off - 0x1000) % 0x400 / 4) : placeAt nw off = .reserved := by
  unfold placeAt
  rw [if_neg (by omega), if_neg (by omega), if_neg (by omega), if_neg (by omega), if_neg (by omega), if_neg (by omega),
    if_neg (by omega)]
  split
  case isTrue h => exact if_neg (Nat.not_lt.2 (hword h.1 h.2))
  case isFalse => rfl

/-- An operand word from NW up is unmapped (rule R37). -/
theorem placeAt_opword_of_le {nw : Nat} (k : Reg) {w : Nat} (hnw : nw ≤ w) (hw : w < 256) :
    placeAt nw (opword k w) = .reserved := by
  have hword : (opword k w - 0x1000) % 0x400 / 4 = w := by unfold opword; omega
  exact placeAt_eq_reserved (by unfold opword; omega) fun _ _ => hword.symm ▸ hnw

/-- An accepted read is the host read of its offset (rules R36 and R40). -/
theorem access_read {s : State} {a : Access} (h : a.Accepted s.cfg) (hk : a.kind = .read) :
    access s a = .next (s.hostRead a.host a.addr (a.addr - s.cfg.base)) := by
  obtain ⟨hlo, hhi, hbytes, hal⟩ := h
  have hwin : ¬ (a.addr < s.cfg.base ∨ s.cfg.base + windowBytes ≤ a.addr) := by unfold windowBytes; omega
  rw [access, if_neg hwin, if_neg (by omega), hk]

/-- An access in the window of another width or misaligned is a bus error (rule R40). -/
theorem access_busError {s : State} {a : Access} (hlo : s.cfg.base ≤ a.addr) (hhi : a.addr < s.cfg.base + windowBytes)
    (h : a.bytes ≠ 4 ∨ (a.addr - s.cfg.base) % 4 ≠ 0) : access s a = .fault (.busError a) := by
  rw [access, if_neg (by omega), if_pos h]

/-- The step of a scheduled read is the host read on the state with that event taken off (rule R47). -/
theorem step_readEvent (s : State) (host : Nat) {off : Nat} (rest : List Event) (hoff : off < windowBytes)
    (hal : off % 4 = 0) :
    step (s.setSchedule (readEvent s.cfg host off :: rest)) =
      .next ((s.setSchedule rest).hostRead host (s.cfg.base + off) off) := by
  have hsub : s.cfg.base + off - s.cfg.base = off := by omega
  have hacc : Access.Accepted ⟨host, s.cfg.base + off, 4, .read⟩ s.cfg :=
    ⟨Nat.le_add_right .., Nat.add_lt_add_left hoff _, rfl, hsub.symm ▸ hal⟩
  refine (step_of_cons (s := s.setSchedule _) rfl).trans ((access_read (s := s.setSchedule rest) hacc rfl).trans ?_)
  simp only [State.setSchedule_cfg, hsub]

/-- A read returns the word of its place when the engine is idle or the place stays readable (rules R38 and R45). -/
theorem step_readEvent_value {s : State} {host off : Nat} {rest : List Event} {v : Word} (hoff : off < windowBytes)
    (hal : off % 4 = 0) (h : s.status.busy = false ∨ (placeAt s.cfg.nw off).drawsWhileBusy = false)
    (hv : s.windowWord off = v) :
    step (s.setSchedule (readEvent s.cfg host off :: rest)) =
      .next ((s.setSchedule rest).pushReply ⟨host, s.cfg.base + off, v⟩) := by
  rw [step_readEvent s host rest hoff hal, State.hostRead, if_neg, ← hv]
  · rfl
  · rcases h with h | h <;> simp [h]

/-- A read of VSTATUS or of a mapped operand word while a command runs is the next draw (rule R45). -/
theorem step_readEvent_draw {s : State} {host off : Nat} {rest : List Event} (hoff : off < windowBytes)
    (hal : off % 4 = 0) (hb : s.status.busy = true) (hd : (placeAt s.cfg.nw off).drawsWhileBusy = true) :
    step (s.setSchedule (readEvent s.cfg host off :: rest)) =
      .next ((s.setSchedule rest).countDraw.pushReply ⟨host, s.cfg.base + off, Config.draw s.draws⟩) := by
  rw [step_readEvent s host rest hoff hal, State.hostRead, if_pos]
  · rfl
  · simp [hb, hd]

/-- A mapped operand word reads the word of its register (rule R38). -/
theorem windowWord_opword {s : State} (hn : s.cfg.nw ≤ 256) (k : Reg) {w : Nat} (hw : w < s.cfg.nw) :
    s.windowWord (opword k w) = operandWord s.cfg (s.reg k) w := by
  rw [State.windowWord, placeAt_opword hn k hw]

/-- A reserved place reads 0 (rule R41). -/
theorem windowWord_of_reserved {s : State} {off : Nat} (h : placeAt s.cfg.nw off = .reserved) : s.windowWord off = 0 := by
  rw [State.windowWord, h]

/-- A reserved place ignores a write (rule R41). -/
theorem hostWrite_of_reserved {s : State} {off : Nat} (h : placeAt s.cfg.nw off = .reserved) (v : Word) :
    s.hostWrite off v = s := by
  rw [State.hostWrite, h]

/-- A write to CMD while a command runs is dropped (rule R45). -/
theorem hostWrite_cmd_of_busy {s : State} (h : s.status.busy = true) (w : Word) :
    s.hostWrite 0x0014 w = s.setStatus s.status.overrun := by
  simp [State.hostWrite, placeAt, h, State.ignoredWrite]

/-- A write to a mapped operand word while a command runs is dropped (rule R45). -/
theorem hostWrite_opword_of_busy {s : State} (hn : s.cfg.nw ≤ 256) (hb : s.status.busy = true) (k : Reg) {w : Nat}
    (hw : w < s.cfg.nw) (v : Word) : s.hostWrite (opword k w) v = s.setStatus s.status.overrun := by
  rw [State.hostWrite, placeAt_opword hn k hw]
  simp only [hb, if_true, State.ignoredWrite]

/-- A write to a mapped operand word while idle replaces that word (rule R38). -/
theorem hostWrite_opword_of_idle {s : State} (hn : s.cfg.nw ≤ 256) (hb : s.status.busy = false) (k : Reg) {w : Nat}
    (hw : w < s.cfg.nw) (v : Word) : s.hostWrite (opword k w) v = s.writeOperandWord k w v := by
  rw [State.hostWrite, placeAt_opword hn k hw]
  simp only [hb, Bool.false_eq_true, if_false]

/-- While a command runs a host write changes CTRL, OVR and IRQP at most (rules R26, R27 and R45). -/
theorem hostWrite_of_busy {s : State} (hb : s.status.busy = true) (off : Nat) (v : Word) :
    ∃ c o i, s.hostWrite off v = (s.setCtrl c).setStatus { s.status with ovr := o, irqp := i } := by
  rcases hostWrite_cases s off v with e | e | e | ⟨-, e⟩ | ⟨hidle, -⟩ | ⟨hidle, -⟩
  · exact ⟨s.ctrl, s.status.ovr, s.status.irqp, e⟩
  · exact ⟨Ctrl.written v, s.status.ovr, s.status.irqp, e⟩
  · exact ⟨s.ctrl, _, _, e⟩
  · exact ⟨s.ctrl, true, s.status.irqp, e⟩
  · exact absurd hb (ne_true_of_eq_false hidle)
  · exact absurd hb (ne_true_of_eq_false hidle)

/-- The step of a write to CMD while idle issues the word (rule R44). -/
theorem step_cmdWrite_of_idle {s : State} (hb : s.status.busy = false) (host : Nat) (v : Word) (rest : List Event) :
    step (s.setSchedule (writeEvent s.cfg host 0x0014 v :: rest)) = .next ((s.setSchedule rest).issue v) := by
  rw [step_writeEvent s host v rest (by decide) rfl, hostWrite_cmd_of_idle (s := s.setSchedule rest) hb]

/-- The step of a write to CMD while a command runs sets OVR (rule R45). -/
theorem step_cmdWrite_of_busy {s : State} (hb : s.status.busy = true) (host : Nat) (v : Word) (rest : List Event) :
    step (s.setSchedule (writeEvent s.cfg host 0x0014 v :: rest)) =
      .next ((s.setSchedule rest).setStatus s.status.overrun) := by
  rw [step_writeEvent s host v rest (by decide) rfl, hostWrite_cmd_of_busy (s := s.setSchedule rest) hb]
  rfl

/-- The step of a write to a mapped operand word while a command runs sets OVR (rule R45). -/
theorem step_operandWrite_of_busy {s : State} (hn : s.cfg.nw ≤ 256) (hb : s.status.busy = true) (host : Nat) (k : Reg)
    {w : Nat} (hw : w < s.cfg.nw) (v : Word) (rest : List Event) :
    step (s.setSchedule (writeEvent s.cfg host (opword k w) v :: rest)) =
      .next ((s.setSchedule rest).setStatus s.status.overrun) := by
  rw [step_writeEvent s host v rest (opword_lt_windowBytes k (by omega)) (opword_mod_four k w),
    hostWrite_opword_of_busy (s := s.setSchedule rest) hn hb k hw]
  rfl

end Sys2Proof.Machine
end

section
/-! SUPPORT. The writes of `setreg` (30_encoding.md rule R64): a later write of a register replaces an earlier one, and the
words of a value written one by one leave that value (20_memory.md rule R46). -/

namespace Sys2Proof.Machine

/-- A register write as one update of the state (rule R30). -/
theorem State.writeDest_eq (s : State) (k : Reg) (x : Int) :
    s.writeDest k x = { s with regs := s.regs.set k (sext s.cfg (twos s.cfg x)),
                               vstatus := if k ≤ 5 then s.vstatus.stale else s.vstatus } := by
  unfold State.writeDest State.touchParam
  split <;> rfl

/-- A second write of a register replaces the first. -/
@[simp] theorem State.writeDest_writeDest (s : State) (k : Reg) (x y : Int) :
    (s.writeDest k x).writeDest k y = s.writeDest k y := by
  have hstale : (if k ≤ 5 then (if k ≤ 5 then s.vstatus.stale else s.vstatus).stale
      else if k ≤ 5 then s.vstatus.stale else s.vstatus) = if k ≤ 5 then s.vstatus.stale else s.vstatus := by
    split <;> rfl
  simp only [State.writeDest_eq, Vector.set_set, hstale]

/-- What a register write stores is set by the pattern of the value (rule R10). -/
theorem State.writeDest_congr (s : State) (k : Reg) {x y : Int} (h : twos s.cfg x = twos s.cfg y) :
    s.writeDest k x = s.writeDest k y := by
  rw [State.writeDest_eq, State.writeDest_eq, h]

/-- A register write, whatever the value, keeps the rest of the state and clears VALID by rule R30. -/
theorem State.writeDest_frame (s : State) (k : Reg) (x : Int) :
    s.OtherRegsKept (s.writeDest k x) k ∧ s.ValidAfterWrite (s.writeDest k x) k :=
  ⟨fun j hj => by rw [State.writeDest_reg, if_neg hj], State.writeDest_vstatus ..⟩

/-- Replacing a word looks at the pattern of the register only (rule R38). -/
@[simp] theorem withOperandWord_sext_twos (c : Config) (x : Int) (w : Nat) (v : Word) :
    withOperandWord c (sext c (twos c x)) w v = withOperandWord c x w v := by
  rw [withOperandWord, twos_sext, withOperandWord]

/-- A register with a word replaced is the integer of its pattern (rule R38). -/
@[simp] theorem sext_twos_withOperandWord (c : Config) (x : Int) (w : Nat) (v : Word) :
    sext c (twos c (withOperandWord c x w v)) = withOperandWord c x w v := by
  rw [withOperandWord, twos_sext]

/-- x with the words `ws` replaced, one after the other, by those of v. -/
def withWordsOf (c : Config) (v x : Int) (ws : List Nat) : Int :=
  ws.foldl (fun y w => withOperandWord c y w (operandWord c v w)) x

/-- The words of a value with some words replaced by those of v. -/
theorem operandWord_withWordsOf (c : Config) (v : Int) {w : Nat} (hw : w < c.nw) (ws : List Nat) : ∀ x : Int,
    operandWord c (withWordsOf c v x ws) w = if w ∈ ws then operandWord c v w else operandWord c x w := by
  induction ws with
  | nil => intro x; simp [withWordsOf]
  | cons u ws ih =>
    intro x
    refine (ih _).trans ?_
    rw [operandWord_withOperandWord c x _ hw]
    by_cases hu : w = u
    · subst hu; simp
    · simp [hu]

/-- With every word replaced the pattern is that of v, whatever the register held (rule R46). -/
theorem twos_withWordsOf_range (c : Config) (v x : Int) : twos c (withWordsOf c v x (List.range c.nw)) = twos c v :=
  pattern_ext c fun w hw => by
    have := operandWord_withWordsOf c v hw (List.range c.nw) x
    rwa [if_pos (List.mem_range.2 hw)] at this

/-- The writes of words of v to Rk, as events (rule R64). -/
def wordWrites (c : Config) (host : Nat) (k : Reg) (v : Int) (ws : List Nat) : List Event :=
  ws.map fun w => writeEvent c host (opword k w) (operandWord c v w)

/-- The step of a write to a mapped operand word while idle writes the register with that word replaced (rule R38). -/
theorem step_operandWrite_of_idle {s : State} (hn : s.cfg.nw ≤ 256) (hb : s.status.busy = false) (host : Nat) (k : Reg)
    {w : Nat} (hw : w < s.cfg.nw) (v : Word) (rest : List Event) :
    step (s.setSchedule (writeEvent s.cfg host (opword k w) v :: rest)) =
      .next ((s.writeDest k (withOperandWord s.cfg (s.reg k) w v)).setSchedule rest) := by
  rw [step_writeEvent s host v rest (opword_lt_windowBytes k (by omega)) (opword_mod_four k w),
    hostWrite_opword_of_idle (s := s.setSchedule rest) hn hb k hw, State.writeOperandWord, State.writeDest_eq,
    State.writeDest_eq]
  rfl

/-- Word writes that come after a write of the register leave that write with the words replaced. -/
theorem run_wordWrites_after_writeDest {s : State} (hn : s.cfg.nw ≤ 256) (hb : s.status.busy = false) (host : Nat)
    (k : Reg) (v : Int) (rest : List Event) (ws : List Nat) (hws : ∀ w ∈ ws, w < s.cfg.nw) : ∀ x : Int,
    run ws.length ((s.writeDest k x).setSchedule (wordWrites s.cfg host k v ws ++ rest)) =
      .next ((s.writeDest k (withWordsOf s.cfg v x ws)).setSchedule rest) := by
  induction ws with
  | nil => exact fun x => rfl
  | cons w ws ih =>
    intro x
    obtain ⟨hw, hws⟩ := List.forall_mem_cons.1 hws
    have hstep := step_operandWrite_of_idle (s := s.writeDest k x) (s.writeDest_cfg k x ▸ hn)
      (s.writeDest_status k x ▸ hb) host k (s.writeDest_cfg k x ▸ hw) (operandWord s.cfg v w)
      (wordWrites s.cfg host k v ws ++ rest)
    simp only [State.writeDest_cfg, State.writeDest_reg, if_true, withOperandWord_sext_twos,
      State.writeDest_writeDest] at hstep
    exact (run_succ ws.length hstep).trans (ih hws _)

/-- One word write or more, while idle, is one write of the register with those words replaced. -/
theorem run_wordWrites {s : State} (hn : s.cfg.nw ≤ 256) (hb : s.status.busy = false) (host : Nat) (k : Reg) (v : Int)
    (rest : List Event) {ws : List Nat} (hne : ws ≠ []) (hws : ∀ w ∈ ws, w < s.cfg.nw) :
    run ws.length (s.setSchedule (wordWrites s.cfg host k v ws ++ rest)) =
      .next ((s.writeDest k (withWordsOf s.cfg v (s.reg k) ws)).setSchedule rest) := by
  obtain ⟨w, ws, rfl⟩ := List.exists_cons_of_ne_nil hne
  obtain ⟨hw, hws⟩ := List.forall_mem_cons.1 hws
  have hstep := step_operandWrite_of_idle hn hb host k hw (operandWord s.cfg v w) (wordWrites s.cfg host k v ws ++ rest)
  exact (run_succ ws.length hstep).trans (run_wordWrites_after_writeDest hn hb host k v rest ws hws _)

/-- The run of `setreg Rk, v` is one write of v to Rk (rules R46 and R64). -/
theorem run_setregEvents {s : State} (hok : s.cfg.Ok) (hb : s.status.busy = false) (host : Nat) (k : Reg) (v : Int)
    (rest : List Event) :
    run s.cfg.nw (s.setSchedule (setregEvents s.cfg host k v ++ rest)) = .next ((s.writeDest k v).setSchedule rest) := by
  obtain ⟨hnw, hn, -, -⟩ := hok
  have hne : List.range s.cfg.nw ≠ [] := List.range_eq_nil.not.2 (by omega)
  have hrun := run_wordWrites hn hb host k v rest hne fun w => List.mem_range.1
  rwa [List.length_range, s.writeDest_congr k (twos_withWordsOf_range s.cfg v (s.reg k))] at hrun

end Sys2Proof.Machine
end

section
/-! Proofs of the statements on host accesses (20_memory.md): reads (rules R38, R43 and R45), the writes of an operand word
and of a whole register (rules R38 and R46), the accesses while a command runs (rules R45 and R50), reserved offsets
(rule R41), issue (rules R44 and R49) and bus errors (rule R40). -/

namespace Sys2Proof.Machine

/-- Settles O37: an accepted read is a host read, which leaves the block and records one reply. -/
theorem readsHaveNoSideEffect : Obligations.ReadsHaveNoSideEffect := by
  intro s a rest hacc hkind hnext
  obtain ⟨v, hread⟩ := hostRead_cases (s.setSchedule rest) a.host a.addr (a.addr - s.cfg.base)
  refine ⟨_, v, ?_, (s.setSchedule rest).hostRead_sameBlock a.host a.addr (a.addr - s.cfg.base), ?_, ?_⟩
  · rw [step_of_cons hnext]
    exact access_read (s := s.setSchedule rest) hacc hkind
  · rcases hread with h | h <;> rw [h] <;> rfl
  · rcases hread with h | h <;> rw [h] <;> rfl

/-- Settles O38, by `step_readEvent_value`: while idle every place reads its word. -/
theorem idleReadsReturnTheRegisters : Obligations.IdleReadsReturnTheRegisters := by
  intro s host rest hok hb reads
  have hreads : ∀ {off : Nat} {v : Word}, off < windowBytes → off % 4 = 0 → s.windowWord off = v → reads off v :=
    fun hoff hal hv => ⟨_, step_readEvent_value hoff hal (.inl hb) hv, ⟨rfl, rfl, rfl, rfl, rfl, rfl⟩, rfl⟩
  refine ⟨hreads (by decide) rfl rfl, hreads (by decide) rfl (windowWord_cfg0_of_ok hok), hreads (by decide) rfl rfl,
    hreads (by decide) rfl rfl, hreads (by decide) rfl rfl, hreads (by decide) rfl rfl, hreads (by decide) rfl rfl,
    fun k w hw => ?_⟩
  obtain ⟨-, hn, -, -⟩ := hok
  exact hreads (opword_lt_windowBytes k (by omega)) (opword_mod_four k w) (windowWord_opword hn k hw)

/-- Settles O40: the step writes the register with one word replaced, whose words are `operandWord_withOperandWord`. -/
theorem idleOperandWriteReplacesOneWord : Obligations.IdleOperandWriteReplacesOneWord := by
  rintro s host w k v rest ⟨-, hn, -, -⟩ hb hw
  have hcfg := s.writeDest_cfg k (withOperandWord s.cfg (s.reg k) w v)
  have hreg : (s.writeDest k (withOperandWord s.cfg (s.reg k) w v)).reg k = withOperandWord s.cfg (s.reg k) w v := by
    rw [State.writeDest_reg, if_pos rfl, sext_twos_withOperandWord]
  obtain ⟨hothers, hvalid⟩ := s.writeDest_frame k (withOperandWord s.cfg (s.reg k) w v)
  refine ⟨_, step_operandWrite_of_idle hn hb host k hw v rest, ?_, fun w' hw' hne => ?_, ?_, hothers, hvalid, by simp⟩
  · rw [State.setSchedule_cfg, State.setSchedule_reg, hreg, hcfg, operandWord_withOperandWord _ _ _ hw, if_pos rfl]
  · rw [State.setSchedule_cfg, State.setSchedule_reg, hreg, hcfg, operandWord_withOperandWord _ _ _ hw', if_neg hne]
  · rw [State.setSchedule_cfg, State.setSchedule_reg, hreg, hcfg]
    exact sext_inRange ..

/-- Settles O42, by the kind of access: a dropped write, a draw, a read of a place that stays readable. -/
theorem busyAccessesAreIgnoredOrDrawn : Obligations.BusyAccessesAreIgnoredOrDrawn := by
  intro s host k w v rest hok hb hw opw
  have ⟨_, hn, _, _⟩ := hok
  have hlt := opword_lt_windowBytes k (w := w) (by omega)
  have hplace := placeAt_opword hn k hw
  have hread : ∀ {off : Nat} {r : Word}, off < windowBytes → off % 4 = 0 →
      (placeAt s.cfg.nw off).drawsWhileBusy = false → s.windowWord off = r →
      step (s.setSchedule (readEvent s.cfg host off :: rest)) =
        .next ((s.setSchedule rest).pushReply ⟨host, s.cfg.base + off, r⟩) :=
    fun hoff hal hd hv => step_readEvent_value hoff hal (.inr hd) hv
  simp only [List.forall_mem_cons, List.not_mem_nil, IsEmpty.forall_iff, implies_true, and_true]
  refine ⟨⟨?_, ?_⟩, ⟨?_, ?_⟩, ?_⟩
  · exact ⟨_, step_cmdWrite_of_busy hb host v rest, rfl⟩
  · exact ⟨_, step_operandWrite_of_busy hn hb host k hw v rest, rfl⟩
  · exact step_readEvent_draw (by decide) rfl hb rfl
  · exact step_readEvent_draw hlt (opword_mod_four k w) hb (congrArg Place.drawsWhileBusy hplace)
  · exact ⟨hread (by decide) rfl rfl rfl, hread (by decide) rfl rfl (windowWord_cfg0_of_ok hok),
      hread (by decide) rfl rfl rfl, hread (by decide) rfl rfl rfl, hread (by decide) rfl rfl rfl,
      hread (by decide) rfl rfl rfl⟩

/-- Settles O45: each of the three ranges is a reserved place, inside the window. -/
theorem reservedOffsetsReadZeroAndIgnoreWrites : Obligations.ReservedOffsetsReadZeroAndIgnoreWrites := by
  intro s host off v rest hal hrange
  have hplace : off < windowBytes ∧ placeAt s.cfg.nw off = .reserved := by
    rcases hrange with ⟨hlo, hhi⟩ | ⟨hlo, hhi⟩ | ⟨k, w, hnw, hw, rfl⟩
    · exact ⟨hhi.trans (by decide), placeAt_eq_reserved hlo (by omega)⟩
    · exact ⟨hhi, placeAt_eq_reserved (by omega) (by omega)⟩
    · exact ⟨opword_lt_windowBytes k hw, placeAt_opword_of_le k hnw hw⟩
  obtain ⟨hoff, hres⟩ := hplace
  constructor
  · exact step_readEvent_value hoff hal (.inr (congrArg Place.drawsWhileBusy hres)) (windowWord_of_reserved hres)
  · rw [step_writeEvent s host v rest hoff hal, hostWrite_of_reserved (s := s.setSchedule rest) hres]
    rfl

/-- Settles O46: by `run_setregEvents` the writes are one write of v, which a register in range holds as it is. -/
theorem setregLeavesTheValue : Obligations.SetregLeavesTheValue := by
  intro s host k v rest hok hb hv
  have hrw : 0 < s.cfg.rw := by unfold Config.rw; omega
  have hreg : (s.writeDest k v).reg k = v := by
    rw [State.writeDest_reg, if_pos rfl, sext_twos_of_inRange s.cfg hrw hv]
  obtain ⟨hothers, hvalid⟩ := s.writeDest_frame k v
  exact ⟨_, run_setregEvents hok hb host k v rest, hreg, hothers, hvalid, by simp⟩

/-- Settles O55: a read leaves the block, and a write changes CTRL, OVR and IRQP at most. -/
theorem runningCommandIsShieldedFromHosts : Obligations.RunningCommandIsShieldedFromHosts := by
  intro s t a rest hb hnext hstep
  rw [step_of_cons hnext] at hstep
  rcases access_cases hstep with ⟨host, addr, off, rfl⟩ | ⟨off, v, rfl⟩
  · obtain ⟨-, hregs, -, hstatus, hcmd, hvstatus⟩ := (s.setSchedule rest).hostRead_sameBlock host addr off
    exact ⟨hcmd, fun i => congrArg (·[i]) hregs, hvstatus, by rw [hstatus]; exact hb, by simp [hstatus]⟩
  · obtain ⟨c, o, i, hwrite⟩ := hostWrite_of_busy (s := s.setSchedule rest) hb off v
    rw [hwrite]
    exact ⟨rfl, fun _ => rfl, rfl, hb, rfl, rfl, rfl, rfl, rfl, rfl⟩

/-- Settles O41: the write is `State.issue`, which writes the latch and STATUS. -/
theorem idleCmdWriteIssues : Obligations.IdleCmdWriteIssues := by
  intro s host v rest hb
  exact ⟨_, step_cmdWrite_of_idle hb host v rest, by simp⟩

/-- Settles O44, by `access_busError`. -/
theorem otherWidthsAndMisalignedAccessesFault : Obligations.OtherWidthsAndMisalignedAccessesFault := by
  intro s a rest hlo hhi h hnext
  rw [step_of_cons hnext]
  exact access_busError (s := s.setSchedule rest) hlo hhi h

/-- Settles O50: the first write issues its word, and the second finds BUSY = 1. -/
theorem firstCmdWriteIssuesTheSecondOverruns : Obligations.FirstCmdWriteIssuesTheSecondOverruns := by
  intro s h1 h2 w1 w2 rest hb
  have hissue := step_cmdWrite_of_idle hb h1 w1 (writeEvent s.cfg h2 0x0014 w2 :: rest)
  have hdrop := step_cmdWrite_of_busy (s := s.issue w1) rfl h2 w2 rest
  exact ⟨_, (run_succ 1 hissue).trans (run_succ 0 hdrop), by simp⟩

end Sys2Proof.Machine
end

section
/-! SUPPORT. The opcode map row by row (30_encoding.md rule R58): the fields a row fixes, the one row a word can spell,
and the decoder and the formats said through them (rules R55 to R60). -/

namespace Sys2Proof

/-- Every bit of the field `[lo + len - 1 : lo]` is 1 in the mask of a row: the row fixes that field. -/
abbrev OpcodeRow.Fixes (r : OpcodeRow) (lo len : Nat) : Prop := r.mask.extractLsb' lo len = BitVec.allOnes len

/-- A word that spells a row has the row's value in every field the row fixes (rule R58). -/
theorem field_of_spells {r : OpcodeRow} {w : Word} {lo len : Nat} {v : BitVec len} (h : r.spells w = true)
    (hfix : r.Fixes lo len := by decide) (hv : r.pattern.extractLsb' lo len = v := by decide) :
    w.extractLsb' lo len = v := by
  have hand : w &&& r.mask = r.pattern := beq_iff_eq.1 h
  rw [← hv, ← hand, BitVec.extractLsb'_and, hfix, BitVec.and_allOnes]

/-- A word with the row's value in fields that make up the mask spells the row (rule R58). -/
theorem spells_of_fields {r : OpcodeRow} {w : Word} {fields : List (Nat × Nat)}
    (hcover : ∀ i < 32, if r.mask.getLsbD i then ∃ f ∈ fields, f.1 ≤ i ∧ i < f.1 + f.2 else r.pattern.getLsbD i = false)
    (hw : ∀ f ∈ fields, w.extractLsb' f.1 f.2 = r.pattern.extractLsb' f.1 f.2) : r.spells w = true := by
  refine beq_iff_eq.2 (BitVec.eq_of_getLsbD_eq fun i hi => ?_)
  have hc := hcover i hi
  rw [BitVec.getLsbD_and]
  split at hc
  case isTrue hm =>
    obtain ⟨f, hf, hlo, hhi⟩ := hc
    have hbit := congrArg (fun x => x.getLsbD (i - f.1)) (hw f hf)
    simpa [hm, BitVec.getLsbD_extractLsb', show i - f.1 < f.2 by omega, show f.1 + (i - f.1) = i by omega] using hbit
  case isFalse hm => simp [hm, hc]

/-- The OPC field of a word (rule R55). -/
def opcOf (w : Word) : BitVec 8 := w.extractLsb' 0 8

/-- The fields above OPC, as lowest bit and width, that the command of an OPC marks 0 (rules R58 and R60). -/
def zeroFields (opc : BitVec 8) : List (Nat × Nat) :=
  match opc.toNat with
  | 0x00 => [(8, 24)]
  | 0x01 => [(16, 16)]
  | 0x02 => [(12, 4)]
  | 0x10 => [(20, 12)]
  | 0x11 => [(20, 12)]
  | 0x12 => [(16, 16)]
  | 0x13 => [(20, 12)]
  | 0x20 => [(8, 12), (21, 11)]
  | 0x21 => [(8, 4), (16, 16)]
  | 0x30 => [(16, 4), (21, 11)]
  | _ => []

/-- The OPC values of the opcode map (rule R58). -/
def opcodes : List (BitVec 8) := opcodeRows.map (opcOf ·.pattern)

/-- OPC lies in every mask (rule R58). -/
theorem fixes_opc_of_mem : ∀ r ∈ opcodeRows, r.Fixes 0 8 := by decide

/-- A row fixes the fields its command marks 0 (rule R58). -/
theorem fixes_zeroFields_of_mem :
    ∀ r ∈ opcodeRows, ∀ f ∈ zeroFields (opcOf r.pattern), r.Fixes f.1 f.2 ∧ r.pattern.extractLsb' f.1 f.2 = 0 := by
  decide

/-- A row fixes nothing but OPC and the fields its command marks 0 (rule R58). -/
theorem mask_covered_of_mem : ∀ r ∈ opcodeRows, ∀ i < 32,
    if r.mask.getLsbD i then ∃ f ∈ (0, 8) :: zeroFields (opcOf r.pattern), f.1 ≤ i ∧ i < f.1 + f.2
    else r.pattern.getLsbD i = false := by
  decide

/-- The OPC values of the ten rows differ (rule R58). -/
theorem opcodes_nodup : opcodes.Nodup := by decide

/-- A word spells a row exactly when it has the row's OPC and 0 in every field the command marks 0 (rules R58, R60). -/
theorem spells_iff_of_mem {r : OpcodeRow} (hr : r ∈ opcodeRows) {w : Word} :
    r.spells w = true ↔ opcOf w = opcOf r.pattern ∧ ∀ f ∈ zeroFields (opcOf r.pattern), w.extractLsb' f.1 f.2 = 0 := by
  constructor
  · intro h
    refine ⟨field_of_spells h (fixes_opc_of_mem r hr) rfl, fun f hf => ?_⟩
    obtain ⟨hfix, hzero⟩ := fixes_zeroFields_of_mem r hr f hf
    exact field_of_spells h hfix hzero
  · rintro ⟨hopc, hzeros⟩
    refine spells_of_fields (mask_covered_of_mem r hr) (List.forall_mem_cons.2 ⟨hopc, fun f hf => ?_⟩)
    obtain ⟨-, hzero⟩ := fixes_zeroFields_of_mem r hr f hf
    rw [hzeros f hf, hzero]

/-- A word has the OPC of a row it spells (rule R58). -/
theorem opcOf_of_spells {r : OpcodeRow} (hr : r ∈ opcodeRows) {w : Word} (h : r.spells w = true) :
    opcOf w = opcOf r.pattern :=
  ((spells_iff_of_mem hr).1 h).1

/-- The rows of the opcode map that one word spells are the same (rule R58). -/
theorem row_unique {r r' : OpcodeRow} (hr : r ∈ opcodeRows) (hr' : r' ∈ opcodeRows) {w : Word}
    (h : r.spells w = true) (h' : r'.spells w = true) : r = r' :=
  List.inj_on_of_nodup_map opcodes_nodup hr hr' ((opcOf_of_spells hr h).symm.trans (opcOf_of_spells hr' h'))

/-- The decoder reads a command exactly where a row that the word spells builds it (rule R59). -/
theorem decode_eq_some_iff {w : Word} {i : Instr} :
    decode w = some i ↔ ∃ r ∈ opcodeRows, r.spells w = true ∧ r.build (fieldsOf w) = i := by
  rw [decode, Option.map_eq_some_iff]
  constructor
  · rintro ⟨r, hfind, hbuild⟩
    exact ⟨r, List.mem_of_find?_eq_some hfind, (List.find?_some hfind :), hbuild⟩
  · rintro ⟨r, hr, hspells, hbuild⟩
    have hsome : (opcodeRows.find? (·.spells w)).isSome := List.find?_isSome.2 ⟨r, hr, hspells⟩
    obtain ⟨r', hfind⟩ := Option.isSome_iff_exists.1 hsome
    have heq : r' = r := row_unique (List.mem_of_find?_eq_some hfind) hr (List.find?_some hfind :) hspells
    exact ⟨r, heq ▸ hfind, hbuild⟩

/-- The decoder reads nothing exactly where the word spells no row (rule R60). -/
theorem decode_eq_none_iff {w : Word} : decode w = none ↔ ∀ r ∈ opcodeRows, ¬ r.spells w = true := by
  rw [decode, Option.map_eq_none_iff, List.find?_eq_none]

/-- A word is illegal exactly when its OPC is none of the map or a field its command marks 0 is not 0 (rule R60). -/
theorem decode_eq_none_iff_fields {w : Word} :
    decode w = none ↔ opcOf w ∉ opcodes ∨ ∃ f ∈ zeroFields (opcOf w), w.extractLsb' f.1 f.2 ≠ 0 := by
  rw [decode_eq_none_iff]
  constructor
  · intro h
    rw [or_iff_not_imp_left, not_not]
    intro hopc
    obtain ⟨r, hr, hrw⟩ := List.mem_map.1 hopc
    by_contra hzeros
    push Not at hzeros
    exact h r hr ((spells_iff_of_mem hr).2 ⟨hrw.symm, hrw ▸ hzeros⟩)
  · intro h r hr hspells
    obtain ⟨hopc, hzeros⟩ := (spells_iff_of_mem hr).1 hspells
    rcases h with hno | ⟨f, hf, hne⟩
    · exact hno (hopc ▸ List.mem_map_of_mem hr)
    · exact hne (hzeros f (hopc ▸ hf))

/-- A format R word of a word's own fields is that word (rule R55). -/
theorem formatR_eq_of_fields {w : Word} {opc : BitVec 8} {rd ra rb : Reg} {fl : BitVec 4}
    (hopc : w.extractLsb' 0 8 = opc) (hrd : w.extractLsb' 8 4 = BitVec.ofFin (w := 4) rd)
    (hra : w.extractLsb' 12 4 = BitVec.ofFin (w := 4) ra) (hrb : w.extractLsb' 16 4 = BitVec.ofFin (w := 4) rb)
    (hfl : w.extractLsb' 20 4 = fl) (hrsv : w.extractLsb' 24 8 = 0#8) : formatR opc rd ra rb fl = w := by
  rw [formatR, ← hopc, ← hrd, ← hra, ← hrb, ← hfl, ← hrsv, BitVec.extractLsb'_append_extractLsb'_eq_extractLsb',
    BitVec.extractLsb'_append_extractLsb'_eq_extractLsb', BitVec.extractLsb'_append_extractLsb'_eq_extractLsb',
    BitVec.extractLsb'_append_extractLsb'_eq_extractLsb', BitVec.extractLsb'_append_extractLsb'_eq_extractLsb']
  · exact BitVec.extractLsb'_eq_self
  all_goals rfl

/-- A format I word of a word's own fields is that word (rules R55 and R57). -/
theorem formatI_eq_of_fields {w : Word} {opc : BitVec 8} {rd : Reg} {imm : Int} (hopc : w.extractLsb' 0 8 = opc)
    (hrd : w.extractLsb' 8 4 = BitVec.ofFin (w := 4) rd) (hrsv : w.extractLsb' 12 4 = 0#4)
    (himm : w.extractLsb' 16 16 = BitVec.ofInt 16 imm) : formatI opc rd imm = w := by
  rw [formatI, ← hopc, ← hrd, ← hrsv, ← himm, BitVec.extractLsb'_append_extractLsb'_eq_extractLsb',
    BitVec.extractLsb'_append_extractLsb'_eq_extractLsb', BitVec.extractLsb'_append_extractLsb'_eq_extractLsb']
  · exact BitVec.extractLsb'_eq_self
  all_goals rfl

/-- An FL field whose upper bits are 0 is its bit 0 (rule R56). -/
theorem flagField_eq_flag0 {w : Word} (h : w.extractLsb' 21 3 = 0#3) : w.extractLsb' 20 4 = flag0 (w.getLsbD 20) := by
  have hflag : ∀ b, flag0 b = 0#3 ++ BitVec.ofBool b := by decide
  have hbit : w.extractLsb' 20 1 = BitVec.ofBool (w.getLsbD 20) := by
    apply BitVec.eq_of_getLsbD_eq
    intro i hi
    obtain rfl : i = 0 := by omega
    simp
  rw [hflag, ← h, ← hbit]
  exact (BitVec.extractLsb'_append_extractLsb'_eq_extractLsb' (w := 32) (start₁ := 20) (len₁ := 1) (len₂ := 3) rfl).symm

/-- The integer a 16-bit field holds is an immediate in range (rule R57). -/
theorem immInRange_toInt (v : BitVec 16) : immInRange v.toInt = true := by
  have hlo : -2 ^ (16 - 1) ≤ v.toInt := v.le_toInt
  have hhi : v.toInt < 2 ^ (16 - 1) := v.toInt_lt
  simp only [immInRange, Bool.and_eq_true, decide_eq_true_eq]
  omega

/-- The command a row builds from a word is well formed (rules R56 and R57). -/
theorem build_wellFormed : ∀ r ∈ opcodeRows, ∀ w : Word, (r.build (fieldsOf w)).wellFormed = true := by
  simp only [opcodeRows, List.forall_mem_cons, List.not_mem_nil, IsEmpty.forall_iff, implies_true, and_true]
  exact ⟨fun _ => rfl, fun _ => rfl, fun _ => immInRange_toInt _, fun _ => rfl, fun _ => rfl, fun _ => rfl,
    fun _ => rfl, fun _ => rfl, fun _ => rfl, fun _ => rfl⟩

/-- The command a row builds from a word that spells it is encoded as that word (rules R55 and R58): a field the command
uses is written where it was read, and every other field the row fixes. -/
theorem encode_build_of_spells {r : OpcodeRow} (hr : r ∈ opcodeRows) {w : Word} (h : r.spells w = true) :
    encode (r.build (fieldsOf w)) = w := by
  simp only [opcodeRows, List.mem_cons, List.not_mem_nil, or_false] at hr
  rcases hr with rfl | rfl | rfl | rfl | rfl | rfl | rfl | rfl | rfl | rfl
  · -- NOP
    exact formatR_eq_of_fields (field_of_spells h) (field_of_spells h) (field_of_spells h) (field_of_spells h)
      (field_of_spells h) (field_of_spells h)
  · -- MOV
    exact formatR_eq_of_fields (field_of_spells h) rfl rfl (field_of_spells h) (field_of_spells h) (field_of_spells h)
  · -- LDI
    exact formatI_eq_of_fields (field_of_spells h) rfl (field_of_spells h) BitVec.ofInt_toInt.symm
  · -- MODEXP
    exact formatR_eq_of_fields (field_of_spells h) rfl rfl rfl (field_of_spells h) (field_of_spells h)
  · -- MODMUL
    exact formatR_eq_of_fields (field_of_spells h) rfl rfl rfl (field_of_spells h) (field_of_spells h)
  · -- MODINV
    exact formatR_eq_of_fields (field_of_spells h) rfl rfl (field_of_spells h) (field_of_spells h) (field_of_spells h)
  · -- MEXPACC
    exact formatR_eq_of_fields (field_of_spells h) rfl rfl rfl (field_of_spells h) (field_of_spells h)
  · -- VALIDATE
    exact formatR_eq_of_fields (field_of_spells h) (field_of_spells h) (field_of_spells h) (field_of_spells h)
      (flagField_eq_flag0 (field_of_spells h)) (field_of_spells h)
  · -- DERIVEH
    exact formatR_eq_of_fields (field_of_spells h) (field_of_spells h) rfl (field_of_spells h) (field_of_spells h)
      (field_of_spells h)
  · -- DLOG
    exact formatR_eq_of_fields (field_of_spells h) rfl rfl (field_of_spells h) (flagField_eq_flag0 (field_of_spells h))
      (field_of_spells h)

/-- Every command satisfies its statement of the family `EncodingRow`. -/
theorem encodingRow (i : Instr) : Laws.EncodingRow.Statement i := by
  cases i with
  | nop => exact Laws.EncodingRow.nop
  | mov rd ra => exact Laws.EncodingRow.mov rd ra
  | ldi rd imm => exact Laws.EncodingRow.ldi rd imm
  | modexp rd ra rb => exact Laws.EncodingRow.modexp rd ra rb
  | modmul rd ra rb => exact Laws.EncodingRow.modmul rd ra rb
  | modinv rd ra => exact Laws.EncodingRow.modinv rd ra
  | mexpacc rd ra rb => exact Laws.EncodingRow.mexpacc rd ra rb
  | validate d => exact Laws.EncodingRow.validate d
  | deriveh ra => exact Laws.EncodingRow.deriveh ra
  | dlog neg rd ra => exact Laws.EncodingRow.dlog neg rd ra

/-- The decoder reads the word of a well-formed command as that command (rules R55 to R59). -/
theorem decode_encode {i : Instr} (h : i.wellFormed = true) : decode (encode i) = some i :=
  decode_eq_some_iff.2 (encodingRow i h)

end Sys2Proof
end

section
/-! Proofs of the statements on the command words (30_encoding.md): the two round trips (rules R55 to R60), the rows of
the opcode map (rule R58), the illegal words (rule R60) and the worked encodings (rule R61). -/

namespace Sys2Proof.Machine

/-- Settles O4: the word spells the row of its command (`encodingRow`), and that is the row the decoder finds. -/
theorem decodeOfEncodeIsTheCommand : Obligations.DecodeOfEncodeIsTheCommand := fun _ => decode_encode

/-- Settles O5: the command is built by a row the word spells, and encodes to it by `encode_build_of_spells`. -/
theorem encodeOfDecodeIsTheWord : Obligations.EncodeOfDecodeIsTheWord := by
  intro w i h
  obtain ⟨r, hr, hspells, rfl⟩ := decode_eq_some_iff.1 h
  exact ⟨build_wellFormed r hr w, encode_build_of_spells hr hspells⟩

/-- Settles O7: the OPC values of the rows differ, and a word has the OPC of a row it spells. -/
theorem noWordSpellsTwoRows : Obligations.NoWordSpellsTwoRows :=
  (List.pairwise_map.1 opcodes_nodup).imp_of_mem fun ha hb hne _ ⟨h1, h2⟩ =>
    hne ((opcOf_of_spells ha h1).symm.trans (opcOf_of_spells hb h2))

/-- The completion of an illegal word, scheduled next, is the error completion with E_ILLEGAL (rule R60). -/
theorem step_complete_of_illegal {s : State} {rest : List Event} (hb : s.status.busy = true) (hd : decode s.cmd = none)
    (hs : s.NextIs .complete rest) : step s = raiseError (s.setSchedule rest) .illegal := by
  rw [step_of_cons hs, runEvent, engineStep_of_busy (s := s.setSchedule rest) hb, completion, State.setSchedule_cmd, hd]

/-- An error completion writes STATUS and nothing else (rule R100). -/
theorem failedWith_setStatus (s : State) (e : ErrorCode) : s.FailedWith (s.setStatus (s.status.failed e)) e :=
  ⟨fun _ => rfl, rfl, ⟨rfl, rfl, rfl, rfl, rfl, rfl, rfl⟩, rfl, rfl, rfl, rfl, rfl, rfl, rfl, rfl⟩

/-- The ten OPC values, written out. -/
theorem opcodes_eq : opcodes = [0x00#8, 0x01#8, 0x02#8, 0x10#8, 0x11#8, 0x12#8, 0x13#8, 0x20#8, 0x21#8, 0x30#8] := rfl

/-- Settles O6: `decode_eq_none_iff_fields`, read off at each OPC, and the error completion. -/
theorem illegalWordsAreExactlyThoseOfTheRule : Obligations.IllegalWordsAreExactlyThoseOfTheRule := by
  refine ⟨fun w => ?_, fun s rest hb hs hd =>
    ⟨_, step_complete_of_illegal hb hd hs, failedWith_setStatus (s.setSchedule rest) .illegal⟩⟩
  rw [decode_eq_none_iff_fields]
  by_cases hopc : opcOf w ∈ opcodes
  case neg => exact iff_of_true (.inl hopc) (.inl hopc)
  case pos =>
    simp only [opcodes_eq, List.mem_cons, List.not_mem_nil, or_false, opcOf] at hopc ⊢
    rcases hopc with h | h | h | h | h | h | h | h | h | h <;> simp [h, zeroFields]

/-- The worked lines of rule R61, each with its word and its command. -/
def workedLines : List (String × Word × Instr) :=
  [("nop", 0x00000000, .nop), ("mov r6, r7", 0x00007601, .mov 6 7), ("ldi r8, -7", 0xFFF90802, .ldi 8 (-7)),
    ("ldi p, 1283", 0x05030002, .ldi 0 1283), ("modexp r8, r9, r10", 0x000A9810, .modexp 8 9 10),
    ("modmul r6, r6, r7", 0x00076611, .modmul 6 6 7), ("modinv r7, r7", 0x00007712, .modinv 7 7),
    ("mexpacc r6, r8, r11", 0x000B8613, .mexpacc 6 8 11), ("validate", 0x00000020, .validate false),
    ("validate.d", 0x00100020, .validate true), ("deriveh r6", 0x00006021, .deriveh 6),
    ("dlog r6, r7", 0x00007630, .dlog false 6 7), ("dlog.neg r6, r7", 0x00107630, .dlog true 6 7)]

/-- The assembler reads each worked line as its command (rules R61 and R62). -/
theorem assembleLine_workedLines : ∀ r ∈ workedLines, assembleLine r.1.toList = some r.2.2 := by
  simp only [workedLines, List.forall_mem_cons, List.not_mem_nil, IsEmpty.forall_iff, implies_true, and_true]
  refine ⟨?_, ?_, ?_, ?_, ?_, ?_, ?_, ?_, ?_, ?_, ?_, ?_, ?_⟩ <;> decide

/-- The encoder gives each worked line's command, which is well formed, the word of the line (rule R61). -/
theorem encode_workedLines : ∀ r ∈ workedLines, encode r.2.2 = r.2.1 ∧ r.2.2.wellFormed = true := by decide

/-- The illegal examples of rule R61 spell no row of the opcode map. -/
theorem decode_illegalExamples :
    ∀ w ∈ [0x00000003#32, 0x00000100, 0x00200030, 0x01007630, 0x00001002, 0x00000120], decode w = none := by
  simp [decode_eq_none_iff, opcodeRows, OpcodeRow.spells]

/-- Settles O3: assembler and encoder by evaluation of each line, the decoder of its word by `decode_encode`; the
illegal examples spell no row. -/
theorem workedEncodingsDecode : Obligations.WorkedEncodingsDecode := by
  refine ⟨fun r hr => ?_, decode_illegalExamples⟩
  obtain ⟨henc, hwf⟩ := encode_workedLines r hr
  exact ⟨assembleLine_workedLines r hr, henc, henc ▸ decode_encode hwf⟩

end Sys2Proof.Machine
end

section
/-! SUPPORT. The pseudo-operation `getreg` of 30_encoding.md rule R64: the integer that words read in order form, and
the run of the reads. -/

namespace Sys2Proof.Machine

/-- The pattern words form, the head of the list the least significant (rule R64). -/
def wordsPattern (c : Config) (ws : List Word) : BitVec c.rw :=
  ws.foldr (fun w acc => acc <<< 32 ||| w.setWidth c.rw) 0#c.rw

/-- `getreg` forms the integer of the pattern of the words (rule R64). -/
theorem wordsToInt_eq (c : Config) (ws : List Word) : wordsToInt c ws = sext c (wordsPattern c ws) := rfl

/-- Bit i of the pattern of words is bit i mod 32 of word i / 32. -/
theorem wordsPattern_getLsbD (c : Config) (ws : List Word) : ∀ {i : Nat}, i < c.rw →
    (wordsPattern c ws).getLsbD i = (ws.getD (i / 32) 0).getLsbD (i % 32) := by
  induction ws with
  | nil => simp [wordsPattern]
  | cons w ws ih =>
    intro i hi
    rw [wordsPattern, List.foldr_cons, ← wordsPattern, BitVec.getLsbD_or, BitVec.getLsbD_shiftLeft,
      BitVec.getLsbD_setWidth]
    by_cases hlow : i < 32
    · simp [hi, hlow, Nat.div_eq_of_lt hlow, Nat.mod_eq_of_lt hlow]
    · obtain ⟨j, rfl⟩ : ∃ j, i = j + 32 := ⟨i - 32, by omega⟩
      simp [hi, ih (i := j) (by omega)]

/-- The words of a value, word 0 first, form its pattern (rules R38 and R64). -/
theorem wordsPattern_operandWords (c : Config) (x : Int) :
    wordsPattern c ((List.range c.nw).map (operandWord c x)) = twos c x := by
  apply BitVec.eq_of_getLsbD_eq
  intro i hi
  have hw : i / 32 < c.nw := by unfold Config.rw at hi; omega
  rw [wordsPattern_getLsbD c _ hi]
  simp [hw, operandWord, Nat.mod_lt, Nat.div_add_mod]

/-- A state with another schedule and other replies: what the host side holds of it (log entries 2 and 10). -/
def State.withHostSide (s : State) (es : List Event) (rs : List Reply) : State :=
  { s with schedule := es, replies := rs }

@[simp] theorem State.withHostSide_cfg (s : State) (es : List Event) (rs : List Reply) :
    (s.withHostSide es rs).cfg = s.cfg := rfl

@[simp] theorem State.withHostSide_reg (s : State) (es : List Event) (rs : List Reply) (j : Reg) :
    (s.withHostSide es rs).reg j = s.reg j := rfl

@[simp] theorem State.withHostSide_replies (s : State) (es : List Event) (rs : List Reply) :
    (s.withHostSide es rs).replies = rs := rfl

/-- The replies to reads of words `ws` of Rk, in the order of the reads (rules R38 and R64). -/
def wordReplies (s : State) (host : Nat) (k : Reg) (ws : List Nat) : List Reply :=
  ws.map fun w => ⟨host, s.cfg.base + opword k w, operandWord s.cfg (s.reg k) w⟩

/-- Reads of operand words while idle record the words of the register, latest first, and change nothing else (rules R38
and R43). -/
theorem run_wordReads {s : State} (hn : s.cfg.nw ≤ 256) (hb : s.status.busy = false) (host : Nat) (k : Reg)
    (rest : List Event) (ws : List Nat) (hws : ∀ w ∈ ws, w < s.cfg.nw) : ∀ rs : List Reply,
    run ws.length (s.withHostSide ((ws.map fun w => readEvent s.cfg host (opword k w)) ++ rest) rs) =
      .next (s.withHostSide rest ((wordReplies s host k ws).reverse ++ rs)) := by
  induction ws with
  | nil => exact fun rs => rfl
  | cons w ws ih =>
    intro rs
    obtain ⟨hw, hws⟩ := List.forall_mem_cons.1 hws
    have hstep := step_readEvent_value (s := s.withHostSide [] rs) (host := host)
      (rest := (ws.map fun w => readEvent s.cfg host (opword k w)) ++ rest)
      (opword_lt_windowBytes k (w := w) (by omega)) (opword_mod_four k w) (.inl hb)
      (windowWord_opword (s := s.withHostSide [] rs) hn k hw)
    refine (run_succ ws.length hstep).trans ((ih hws _).trans ?_)
    simp [wordReplies]

/-- The run of `getreg Rk` while idle records the words of Rk and changes nothing else (rule R64). -/
theorem run_getregEvents {s : State} (hn : s.cfg.nw ≤ 256) (hb : s.status.busy = false) (host : Nat) (k : Reg)
    (rest : List Event) :
    run s.cfg.nw (s.setSchedule (getregEvents s.cfg host k ++ rest)) =
      .next (s.withHostSide rest ((wordReplies s host k (List.range s.cfg.nw)).reverse ++ s.replies)) := by
  have hrun := run_wordReads hn hb host k rest (List.range s.cfg.nw) (fun w => List.mem_range.1) s.replies
  rwa [List.length_range] at hrun

end Sys2Proof.Machine
end

section
/-! SUPPORT. The pseudo-operation `issue` of 30_encoding.md rule R64: a command does not look at the host side, the
polls change nothing else, and the poll after the completion ends the loop. -/

namespace Sys2Proof.Machine

/-- A destination write leaves the host side alone. -/
theorem State.withHostSide_writeDest (s : State) (es : List Event) (rs : List Reply) (rd : Reg) (v : Int) :
    (s.withHostSide es rs).writeDest rd v = (s.writeDest rd v).withHostSide es rs := by
  rw [State.writeDest_eq, State.writeDest_eq]
  rfl

/-- The end of a command does not look at the host side, when its writes do not. -/
theorem conclude_withHostSide {α : Type} {s t : State} {es : List Event} {rs : List Reply} (r : Except ErrorCode α)
    {f g : α → State} (hfg : ∀ a, g a = (f a).withHostSide es rs) (h : conclude s (r.map f) = .next t) :
    conclude (s.withHostSide es rs) (r.map g) = .next (t.withHostSide es rs) := by
  cases r with
  | error e => cases h; rfl
  | ok a =>
    cases h
    rw [Except.map, hfg a]
    rfl

/-- A command neither reads nor writes the host side (rules R43 and R59). -/
theorem exec_withHostSide {i : Instr} {s t : State} (h : exec i s = .next t) (es : List Event) (rs : List Reply) :
    exec i (s.withHostSide es rs) = .next (t.withHostSide es rs) := by
  have hdest := s.withHostSide_writeDest es rs
  cases i with
  | nop => cases h; rfl
  | mov rd ra => cases h; rw [exec, execMov, hdest]; rfl
  | ldi rd imm => cases h; rw [exec, execLdi, hdest]; rfl
  | modexp rd ra rb => exact conclude_withHostSide _ (hdest rd) h
  | modmul rd ra rb => exact conclude_withHostSide _ (hdest rd) h
  | modinv rd ra => exact conclude_withHostSide _ (hdest rd) h
  | mexpacc rd ra rb => exact conclude_withHostSide _ (hdest rd) h
  | validate d => cases h; rfl
  | deriveh ra => exact conclude_withHostSide _ (fun _ => rfl) h
  | dlog neg rd ra => exact conclude_withHostSide _ (fun hit => by rw [hdest]; rfl) h

/-- Every command answers a next state (rule R104). -/
theorem exec_next (i : Instr) (s : State) : ∃ t, exec i s = .next t := by
  rcases exec_shape i s with ⟨e, h⟩ | ⟨u, -, h⟩
  · exact ⟨_, h⟩
  · exact ⟨_, h⟩

/-- The reply to a read of STATUS (rules R27 and R64). -/
def statusReply (s : State) (host : Nat) : Reply := ⟨host, s.cfg.base + 0x0010, s.status.toWord⟩

/-- A poll reads STATUS, busy or idle, and changes nothing else (rules R43 and R45). -/
theorem step_pollEvent (s : State) (host : Nat) (rest : List Event) :
    step (s.setSchedule (pollEvent s.cfg host :: rest)) = .next ((s.setSchedule rest).pushReply (statusReply s host)) :=
  step_readEvent_value (off := 0x0010) (by decide) rfl (.inr rfl) rfl

/-- Bit 0 of STATUS is BUSY (rule R27). -/
theorem Status.toWord_getLsbD_zero (t : Status) : t.toWord.getLsbD 0 = t.busy := by
  rw [Status.toWord_eq_flagsWord, flagsWord_zero_getLsbD _ (by decide)]
  rfl

/-- Bit 1 of STATUS is DONE (rule R27). -/
theorem Status.toWord_getLsbD_one (t : Status) : t.toWord.getLsbD 1 = t.done := by
  rw [Status.toWord_eq_flagsWord, flagsWord_zero_getLsbD _ (by decide)]
  rfl

/-- A round of the polling loop whose read finds the block as in `t` goes on or ends by the BUSY of `t` (rule R64). -/
theorem pollLoop_round {s t : State} {host : Nat} {es : List Event} (rounds : List (List Event))
    (h : run (es.length + 1) (s.setSchedule (es ++ [pollEvent s.cfg host])) =
      .next (t.withHostSide [] (statusReply t host :: s.replies))) :
    pollLoop host (es :: rounds) s =
      if t.status.busy then pollLoop host rounds (t.withHostSide [] (statusReply t host :: s.replies))
      else some (t.status.toWord, t.withHostSide [] (statusReply t host :: s.replies)) := by
  rw [pollLoop_cons h rfl]
  simp only [statusReply, Status.toWord_getLsbD_zero]

/-- A poll that finds BUSY = 1 goes on to the next (rule R64). -/
theorem pollLoop_of_busy {s : State} (hb : s.status.busy = true) (host : Nat) (rounds : List (List Event)) :
    pollLoop host ([] :: rounds) s = pollLoop host rounds (s.withHostSide [] (statusReply s host :: s.replies)) :=
  (pollLoop_round (es := []) rounds (run_succ 0 (step_pollEvent s host []))).trans (if_pos hb)

/-- Polls that find BUSY = 1 leave everything but the host side (rule R64). -/
theorem pollLoop_polls (host n : Nat) (rounds : List (List Event)) : ∀ {s : State}, s.status.busy = true →
    ∃ es rs, pollLoop host (List.replicate n [] ++ rounds) s = pollLoop host rounds (s.withHostSide es rs) := by
  induction n with
  | zero => exact fun {s} _ => ⟨s.schedule, s.replies, rfl⟩
  | succ n ih =>
    intro s hb
    obtain ⟨es, rs, h⟩ := ih (s := s.withHostSide [] (statusReply s host :: s.replies)) hb
    exact ⟨es, rs, (pollLoop_of_busy hb host _).trans h⟩

/-- The poll after the completion ends the loop with the STATUS word of the completion (rules R64, R99 and R100). -/
theorem pollLoop_complete {s t : State} {i : Instr} (hb : s.status.busy = true) (hd : decode s.cmd = some i)
    (h : exec i s = .next t) (host : Nat) :
    pollLoop host [[.complete]] s = some (t.status.toWord, t.withHostSide [] (statusReply t host :: s.replies)) := by
  have hstep : step (s.setSchedule [.complete, pollEvent s.cfg host]) =
      .next (t.withHostSide [pollEvent s.cfg host] s.replies) :=
    (step_complete_of_decode (s := s.setSchedule [.complete, pollEvent s.cfg host]) hb hd rfl).trans
      (exec_withHostSide h _ s.replies)
  have hcfg : t.cfg = s.cfg := by simpa using step_cfg hstep
  have hpoll := step_pollEvent (t.withHostSide [] s.replies) host []
  have hrun := (run_succ 1 (hcfg ▸ hstep)).trans (run_succ 0 hpoll)
  obtain ⟨hidle, -⟩ := exec_busy_done h
  exact (pollLoop_round (es := [.complete]) [] (hcfg ▸ hrun)).trans (if_neg (ne_true_of_eq_false hidle))

/-- `issue` while idle is the polling loop from the state at issue (rules R44 and R64). -/
theorem issueCommand_of_idle {s : State} (hb : s.status.busy = false) (host : Nat) (i : Instr)
    (rounds : List (List Event)) :
    issueCommand host i rounds s = pollLoop host rounds ((s.setSchedule []).issue (encode i)) := by
  have hstep := step_cmdWrite_of_idle hb host (encode i) []
  rw [issueCommand, issueEvent, hstep]

end Sys2Proof.Machine
end

section
/-! Proofs of the statements on the host pseudo-operations `getreg` and `issue` (30_encoding.md rule R64). -/

namespace Sys2Proof.Machine

/-- Settles O47: by `run_getregEvents` the values read are the words of Rk, which form its pattern, and the integer of
the pattern is Rk where Rk is in range. -/
theorem getregFormsTheValue : Obligations.GetregFormsTheValue := by
  rintro s host k rest ⟨⟨hnw, hn, -, -⟩, hregs⟩ hb
  have hlen : (wordReplies s host k (List.range s.cfg.nw)).reverse.length = s.cfg.nw := by simp [wordReplies]
  refine ⟨_, run_getregEvents hn hb host k rest, ⟨rfl, rfl, rfl, rfl, rfl, rfl⟩, rfl, List.drop_left' hlen, ?_⟩
  have hwords : (wordReplies s host k (List.range s.cfg.nw)).map (·.value) =
      (List.range s.cfg.nw).map (operandWord s.cfg (s.reg k)) := by
    simp [wordReplies]
  have hrw : 0 < s.cfg.rw := by unfold Config.rw; omega
  rw [State.withHostSide_replies, List.take_left' hlen, List.reverse_reverse, hwords, wordsToInt_eq,
    wordsPattern_operandWords, sext_twos_of_inRange s.cfg hrw (hregs k)]

/-- Settles O48: `pollLoop_polls` runs the n polls, `pollLoop_complete` the round of the completion. -/
theorem issueReturnsTheCompletionStatus : Obligations.IssueReturnsTheCompletionStatus := by
  intro s host i n hb hwf
  obtain ⟨t, hexec⟩ := exec_next i (s.issue (encode i))
  obtain ⟨hbusy, hdone⟩ := exec_busy_done hexec
  have hissued : ((s.setSchedule []).issue (encode i)).status.busy = true := rfl
  obtain ⟨es, rs, hpolls⟩ := pollLoop_polls host n [[.complete]] hissued
  have hend := pollLoop_complete (s := (s.issue (encode i)).withHostSide es rs) rfl (decode_encode hwf)
    (exec_withHostSide hexec es rs) host
  obtain ⟨es', rs', hwaits⟩ := pollLoop_polls host n [] hissued
  rw [List.append_nil] at hwaits
  refine ⟨t, _, hexec, (issueCommand_of_idle hb host i _).trans (hpolls.trans hend), ⟨rfl, rfl, rfl, rfl, rfl, rfl⟩,
    t.status.toWord_getLsbD_zero.trans hbusy, t.status.toWord_getLsbD_one.trans hdone, ?_⟩
  rw [issueCommand_of_idle hb, hwaits, pollLoop]

end Sys2Proof.Machine
end

section
/-! SUPPORT. What a successful completion leaves (60_exceptions.md rule R99), alone and after the destination write of a
command (10_state.md rule R30), and the immediate of LDI as an operand register holds it (30_encoding.md rule R57). -/

namespace Sys2Proof.Machine

/-- A successful completion writes BUSY, DONE, ERR, ECODE and IRQP, and keeps the outcome flags (rule R99). -/
theorem State.succeeded_finished {s u : State} (h : u.status = s.status) :
    s.Succeeded (u.setStatus u.status.finished) := by
  simp [State.Succeeded, h]

/-- STATUS after issue and a successful completion: DONE and IRQP, and OVR as it was (rules R44 and R99). -/
theorem Status.issued_finished (t : Status) :
    t.issued.finished = { Status.reset with done := true, irqp := true, ovr := t.ovr } := rfl

/-- A command that writes v to rd and then succeeds has written nothing else, whenever a register can hold v (rules R19,
R30 and R99). -/
theorem State.Ready.wroteOnly_finished {s : State} (h : s.Ready) (rd : Reg) {v : Int} (hv : InRange s.cfg v) :
    s.WroteOnly ((s.writeDest rd v).setStatus (s.writeDest rd v).status.finished) rd v := by
  obtain ⟨hok, -⟩ := h
  have hrw : 0 < s.cfg.rw := by unfold Config.rw; omega
  have hreg : (s.writeDest rd v).reg rd = v := by
    rw [State.writeDest_reg, if_pos rfl, sext_twos_of_inRange s.cfg hrw hv]
  obtain ⟨hothers, hvalid⟩ := s.writeDest_frame rd v
  exact ⟨hreg, hothers, hvalid, State.succeeded_finished (s.writeDest_status rd v), by simp [State.SameOutside]⟩

/-- A 16-bit immediate is in the range of every signed number of 16 bits or more (rule R57). -/
theorem imm_bounds {imm : Int} (h : immInRange imm = true) {n : Nat} (hn : 15 ≤ n) : -2 ^ n ≤ imm ∧ imm < 2 ^ n := by
  have hpow : (2 : Int) ^ 15 ≤ 2 ^ n := pow_le_pow_right₀ (by decide) hn
  simp only [immInRange, Bool.and_eq_true, decide_eq_true_eq] at h
  omega

/-- A word above the magnitude of a negative value holds copies of its sign (rules R10 and R38). -/
theorem operandWord_of_neg (c : Config) {x : Int} {w : Nat} (hw : w < c.nw) (hlo : -2 ^ (32 * w) ≤ x) (hx : x < 0) :
    operandWord c x w = 0xFFFFFFFF := by
  obtain ⟨k, rfl⟩ := Int.eq_negSucc_of_lt_zero hx
  have hk : k < 2 ^ (32 * w) := by
    zify
    omega
  apply BitVec.eq_of_getLsbD_eq
  intro i hi
  have hrw : 32 * w + i < c.rw := by unfold Config.rw; omega
  have hbit : k.testBit (32 * w + i) = false :=
    Nat.testBit_lt_two_pow (hk.trans_le (Nat.pow_le_pow_right (by decide) (Nat.le_add_right ..)))
  rw [show (0xFFFFFFFF : Word) = BitVec.allOnes 32 by decide, BitVec.getLsbD_allOnes, operandWord, twos,
    BitVec.ofInt_negSucc_eq_not_ofNat, BitVec.getLsbD_extractLsb', BitVec.getLsbD_not, BitVec.getLsbD_ofNat, hbit]
  simp [hi, hrw]

end Sys2Proof.Machine
end

section
/-! Proofs of the statements on the commands of 40_move.md: NOP (rule R65), MOV (rule R66) and LDI (rule R67). -/

namespace Sys2Proof.Machine

/-- Settles O12: NOP is a successful completion alone, and after issue that sets DONE and IRQP only. -/
theorem nopOnlyCompletes : Obligations.NopOnlyCompletes := by
  constructor
  · intro s
    exact ⟨_, rfl, fun _ => rfl, rfl, State.succeeded_finished rfl, rfl, rfl, rfl, rfl, rfl, rfl, rfl⟩
  · intro s hovr
    refine ⟨_, rfl, ?_⟩
    rw [State.setStatus_status, State.issue_status, Status.issued_finished, hovr]
    decide

/-- Settles O13: the value written is that of a register, which is in range. -/
theorem movCopiesTheRegister : Obligations.MovCopiesTheRegister := by
  intro rd ra s hs
  have ⟨_, hregs⟩ := hs
  exact ⟨_, rfl, hs.wroteOnly_finished rd (hregs ra)⟩

/-- Settles O14: the immediate is in the range of a register, and each word above the lowest lies above it. -/
theorem ldiWritesTheImmediate : Obligations.LdiWritesTheImmediate := by
  intro rd imm s hs himm
  have ⟨⟨hnw, _⟩, _⟩ := hs
  have hv : InRange s.cfg imm := imm_bounds himm (by unfold Config.rw; omega)
  have hwrote := hs.wroteOnly_finished rd hv
  refine ⟨_, rfl, hwrote, fun hneg w hlo hw => ?_⟩
  obtain ⟨hreg, -, -, -, hcfg, -⟩ := hwrote
  obtain ⟨hfit, -⟩ := imm_bounds himm (n := 32 * w) (by omega)
  rw [hreg, hcfg, operandWord_of_neg s.cfg hw hfit hneg]

end Sys2Proof.Machine
end

section
/-! SUPPORT. What each check function of 41_validator.md rule R72 says of its values, as an equivalence; the checks that a
VALIDATE turns into VALID (rule R73); and the signed power that DERIVEH writes (43_modexp.md rule R89). -/

namespace Sys2Proof.Machine

/-- SAFE says that P = 2*Q + 1 (rule R72). -/
theorem checkSafe_iff {p q : Int} : checkSafe p q = true ↔ p = 2 * q + 1 := beq_iff_eq

/-- GRNG and HRNG say that 0 <= v < P (rule R72). -/
theorem checkRange_iff {p v : Int} : checkRange p v = true ↔ 0 ≤ v ∧ v < p := by
  simp only [checkRange, Bool.and_eq_true, decide_eq_true_eq]

/-- GNE1 and HNE1 say that v != 1 (rule R72). -/
theorem checkNotOne_iff {v : Int} : checkNotOne v = true ↔ v ≠ 1 := bne_iff_ne

/-- LPOS and BPOS say that v >= 1 (rule R72). -/
theorem checkPositive_iff {v : Int} : checkPositive v = true ↔ 1 ≤ v := decide_eq_true_iff

/-- PRECOND says that 2*L*B*B <= Q (rule R72). -/
theorem checkPrecond_iff {q l b : Int} : checkPrecond q l b = true ↔ 2 * l * b * b ≤ q := decide_eq_true_iff

/-- GORD and HORD as rule R14 writes the power, with the base reduced first. -/
theorem checkOrder_iff_emod {p q v : Int} :
    checkOrder p q v = true ↔ 2 ≤ p ∧ 0 ≤ q ∧ (v % p) ^ q.toNat % p = 1 := by
  rw [checkOrder_iff, (Int.mod_modEq v p).pow q.toNat]

/-- The modulus of an inverse is at least 2 (rule R13). -/
theorem IsInverse.two_le {a p x : Int} (h : IsInverse a p x) : 2 ≤ p := by
  obtain ⟨hlo, hhi, -⟩ := h
  omega

/-- HF2 says that H has an inverse mod P that does not divide P - 1 (rules R13 and R72). -/
theorem checkFilter2_iff {p h : Int} : checkFilter2 p h = true ↔ ∃ x, IsInverse h p x ∧ ¬ x ∣ p - 1 := by
  constructor
  · intro hf
    obtain ⟨x, hlo, hhi, hmul, hdvd⟩ := exists_inverse_of_checkFilter2 hf
    exact ⟨x, ⟨hlo, hhi, hmul⟩, hdvd⟩
  · rintro ⟨x, hx, hdvd⟩
    have ⟨_, _, hmul⟩ := hx
    have hp := hx.two_le
    have hinv := hasInv_of_inverse hmul
    have heq : inv h p = x := inverse_unique (inv_spec hp hinv) hx
    simp [checkFilter2, modok, hp, hinv, heq, ← Bool.not_eq_true, divides_iff, hdvd]

/-- VSTATUS after VALIDATE on the registers of a state (rule R73). -/
def State.validatedBits (s : State) (d : Bool) : VStatus :=
  validated s.cfg d (s.reg regP) (s.reg regQ) (s.reg regG) (s.reg regH) (s.reg regL) (s.reg regB) s.vstatus

/-- VALIDATE writes VSTATUS and succeeds (rule R73). -/
theorem exec_validate (d : Bool) (s : State) :
    exec (.validate d) s = .next ((s.setVStatus (s.validatedBits d)).setStatus s.status.finished) := rfl

/-- VALIDATE sets VALID when the group checks hold and, with D = 1, the Damgård checks do: P >= 2 and Q >= 0, which GORD and
HORD ask for too, come with PPRIME and QPRIME (rules R72 and R73). -/
theorem validatedBits_valid_of_checks {s : State} {d : Bool} (hg : s.GroupChecksHold)
    (hd : d = true → s.DamgardChecksHold) : (s.validatedBits d).valid = true := by
  obtain ⟨hsafe, hpprime, hqprime, hg0, hgp, hg1, hgord, hl, hb, hpre⟩ := hg
  obtain ⟨hp, -⟩ := primeTest_iff.1 hpprime
  obtain ⟨hq, -⟩ := primeTest_iff.1 hqprime
  have hq0 : 0 ≤ s.reg regQ := by omega
  simp only [State.validatedBits, validated, Bool.and_eq_true, Bool.or_eq_true, Bool.not_eq_true', and_assoc]
  refine ⟨checkSafe_iff.2 hsafe, hpprime, hqprime, checkRange_iff.2 ⟨hg0, hgp⟩, checkNotOne_iff.2 hg1,
    checkOrder_iff.2 ⟨hp, hq0, hgord⟩, checkPositive_iff.2 hl, checkPositive_iff.2 hb, checkPrecond_iff.2 hpre, ?_⟩
  cases d with
  | false => exact .inl rfl
  | true =>
    obtain ⟨hh0, hhp, hh1, hhord, hne, hdvd, x, hlo, hhi, hmul, hxdvd⟩ := hd rfl
    exact .inr ⟨checkRange_iff.2 ⟨hh0, hhp⟩, checkNotOne_iff.2 hh1, checkOrder_iff.2 ⟨hp, hq0, hhord⟩,
      checkFilter1_iff.2 ⟨hne, hdvd⟩, checkFilter2_iff.2 ⟨x, ⟨hlo, hhi, hmul⟩, hxdvd⟩⟩

/-- VALID after VALIDATE is the group checks and, with D = 1, the Damgård checks (rule R73). -/
theorem validatedBits_valid_iff (s : State) (d : Bool) :
    (s.validatedBits d).valid = true ↔ s.GroupChecksHold ∧ (d = true → s.DamgardChecksHold) :=
  ⟨validated_describes s d, fun ⟨hg, hd⟩ => validatedBits_valid_of_checks hg hd⟩

/-- SModExp has a value when the exponent is not negative or the base has an inverse, and the value is the signed power
(rule R89). -/
theorem exists_sModExp {b e p : Int} (hp : 2 ≤ p) (h : 0 ≤ e ∨ Invertible b p) :
    ∃ v, sModExp b e p = some v ∧ IsSignedPower b e p v := by
  rcases lt_or_ge e 0 with he | he
  · have hb : hasInv b p = true := hasInv_iff.2 (h.resolve_left (by omega))
    refine ⟨inv (powMod b (-e) p) p, by rw [sModExp_neg hp he, if_pos hb], fun h0 => by omega, fun _ => ?_⟩
    rw [← powMod_eq hp]
    exact inv_spec hp ((hasInv_powMod hp (by omega)).trans hb)
  · exact ⟨powMod b e p, sModExp_nonneg he, fun _ => powMod_eq hp, fun hneg => by omega⟩

/-- A signed power lies in [0, p) (rule R89). -/
theorem IsSignedPower.range {b e p v : Int} (h : IsSignedPower b e p v) (hp : 2 ≤ p) : 0 ≤ v ∧ v < p := by
  obtain ⟨hnonneg, hneg⟩ := h
  rcases lt_or_ge e 0 with he | he
  · obtain ⟨hlo, hhi, -⟩ := hneg he
    exact ⟨by omega, hhi⟩
  · rw [hnonneg he]
    exact ⟨Int.emod_nonneg _ (by omega), Int.emod_lt_of_pos _ (by omega)⟩

/-- A value of [0, P) is in the range of a register when the registers are (rule R19). -/
theorem State.RegsInRange.inRange_of_lt_regP {s : State} (h : s.RegsInRange) {v : Int} (hlo : 0 ≤ v)
    (hhi : v < s.reg regP) : InRange s.cfg v := by
  have hp := h regP
  have hpow : (0 : Int) < 2 ^ (s.cfg.rw - 1) := by positivity
  exact ⟨by omega, by omega⟩

/-- VSTATUS after DERIVEH ra wrote h (rule R75). -/
def State.derivedBits (s : State) (ra : Reg) (h : Int) : VStatus :=
  derived (s.reg regP) (s.reg regQ) (s.reg ra) h s.vstatus

/-- RRNG says that 2 <= r < Q (rule R75). -/
theorem State.derivedBits_rrng_iff (s : State) (ra : Reg) (h : Int) :
    (s.derivedBits ra h).rrng = true ↔ 2 ≤ s.reg ra ∧ s.reg ra < s.reg regQ := by
  simp only [State.derivedBits, derived, Bool.and_eq_true, decide_eq_true_eq]

/-- DERIVEH writes H and VSTATUS and succeeds, whenever the signed power has a value (rule R75). -/
theorem exec_deriveh {ra : Reg} {s : State} {h : Int} (hp : 2 ≤ s.reg regP)
    (hv : sModExp (s.reg regG) (s.reg ra) (s.reg regP) = some h) :
    exec (.deriveh ra) s =
      .next (((s.setReg regH h).setVStatus (s.derivedBits ra h)).setStatus s.status.finished) := by
  have hvalue : derivehValue (s.reg regP) (s.reg regG) (s.reg ra) = .ok h := by
    rw [derivehValue, if_neg (by omega), hv]
  rw [exec, execDeriveh, hvalue]
  rfl

end Sys2Proof.Machine
end

section
/-! SUPPORT. The order of G mod P and the search size that the checks of VALIDATE give (41_validator.md rule R74, 42_dlog.md
rule R79). -/

namespace Sys2Proof.Machine

/-- Integers are equal in ZMod p exactly when their remainders by p are. -/
theorem intCast_zmod_eq_iff {p : Int} (hp : 0 ≤ p) (a b : Int) :
    (a : ZMod p.toNat) = b ↔ a % p = b % p := by
  rw [ZMod.intCast_eq_intCast_iff', Int.toNat_of_nonneg hp]

/-- A g of [0, p) other than 1 whose power to the prime q is 1 mod p has order q (rule R74). -/
theorem orderOf_eq_of_prime {p g : Int} {q : Nat} (hq : q.Prime) (h0 : 0 ≤ g) (hgp : g < p) (h1 : g ≠ 1)
    (hp : 2 ≤ p) (hpow : g ^ q % p = 1) : orderOf ((g : Int) : ZMod p.toNat) = q := by
  have : Fact q.Prime := ⟨hq⟩
  have hone : (1 : Int) % p = 1 := Int.emod_eq_of_lt (by omega) (by omega)
  have hcast : ∀ a : Int, ((a : Int) : ZMod p.toNat) = 1 ↔ a % p = 1 := fun a => by
    simpa [hone] using intCast_zmod_eq_iff (by omega : 0 ≤ p) a 1
  refine orderOf_eq_prime ?_ ?_
  · rw [← Int.cast_pow]
    exact (hcast _).2 hpow
  · rw [ne_eq, hcast, Int.emod_eq_of_lt h0 hgp]
    exact h1

/-- Powers of g below its order mod p that agree mod p have the same exponent (rule R74). -/
theorem exponent_eq_of_lt_orderOf {p g : Int} (hp : 0 ≤ p) {i j : Nat}
    (hi : i < orderOf ((g : Int) : ZMod p.toNat)) (hj : j < orderOf ((g : Int) : ZMod p.toNat))
    (h : g ^ i % p = g ^ j % p) : i = j := by
  have hcast := (intCast_zmod_eq_iff hp _ _).2 h
  rw [Int.cast_pow, Int.cast_pow] at hcast
  exact pow_injOn_Iio_orderOf hi hj hcast

/-- Under PRECOND the search size is at most Q, for Q >= 2: the square of Q - 1 is at least L*B*B (rules R74 and R79). -/
theorem searchSize_le_of_precond {l b m q : Int} (hm : IsSearchSize l b m) (hq : 2 ≤ q)
    (hpre : 2 * l * b * b ≤ q) : m ≤ q := by
  obtain ⟨c, -, -, hleast, rfl⟩ := hm
  have hsq : l * b * b ≤ (q - 1) * (q - 1) := by
    have : 0 ≤ (2 * q - 1) * (q - 2) := mul_nonneg (by omega) (by omega)
    linarith
  have := hleast (q - 1) (by omega) hsq
  omega

end Sys2Proof.Machine
end

section
/-! Proofs of the statements on VALIDATE and DERIVEH: the bits they write (41_validator.md rules R72, R73 and R75), when
VALID is 1 (rule R73) and what it then says of G (rule R74). -/

namespace Sys2Proof.Machine

/-- Settles O26: each bit is its check function, which says what rule R72 says. -/
theorem validateWritesTheGroupChecks : Obligations.ValidateWritesTheGroupChecks := by
  intro d s
  exact ⟨_, exec_validate d s, fun _ => rfl, State.succeeded_finished rfl, ⟨rfl, rfl, rfl, rfl, rfl, rfl, rfl⟩,
    checkSafe_iff, rfl, rfl, checkRange_iff, checkNotOne_iff, checkOrder_iff_emod, checkPositive_iff, checkPositive_iff,
    checkPrecond_iff, rfl, rfl, rfl⟩

/-- Settles O27: with D = 1 each bit is its check function; an inverse of H comes with P >= 2. -/
theorem validateWritesTheDamgardChecks : Obligations.ValidateWritesTheDamgardChecks := by
  intro s
  have hf2 : checkFilter2 (s.reg regP) (s.reg regH) = true ↔
      2 ≤ s.reg regP ∧ ∃ x, IsInverse (s.reg regH) (s.reg regP) x ∧ ¬ x ∣ s.reg regP - 1 := by
    rw [checkFilter2_iff, iff_and_self]
    exact fun ⟨_, hx, _⟩ => hx.two_le
  exact ⟨⟨_, exec_validate false s, rfl, rfl, rfl, rfl, rfl⟩,
    ⟨_, exec_validate true s, checkRange_iff, checkNotOne_iff, checkOrder_iff_emod, checkFilter1_iff, hf2⟩⟩

/-- Settles O28, by `validatedBits_valid_iff`. -/
theorem validExactlyWhenEveryCheckHolds : Obligations.ValidExactlyWhenEveryCheckHolds :=
  fun d s => ⟨_, exec_validate d s, validatedBits_valid_iff s d⟩

/-- Settles O29: VALID gives the group checks; a prime Q makes the order of G exactly Q, and PRECOND keeps the baby steps
below it. -/
theorem validGivesAGeneratorOfOrderQ : Obligations.ValidGivesAGeneratorOfOrderQ := by
  intro d s t m hexec hvalid hprime hm
  rw [exec_validate] at hexec
  cases hexec
  obtain ⟨⟨-, hpprime, hqprime, hg0, hgp, hg1, hgord, -, -, hpre⟩, -⟩ := (validatedBits_valid_iff s d).1 hvalid
  obtain ⟨hp, -⟩ := primeTest_iff.1 hpprime
  obtain ⟨hq, -⟩ := primeTest_iff.1 hqprime
  have horder := orderOf_eq_of_prime hprime hg0 hgp hg1 hp hgord
  have hmq := searchSize_le_of_precond hm hq hpre
  refine ⟨Int.emod_eq_of_lt hg0 hgp, hg1, hgord, horder, hmq, fun i j hi hj h => ?_⟩
  exact exponent_eq_of_lt_orderOf (by omega) (by omega) (by omega) h

/-- Settles O30: the signed power exists and lies in [0, P), so R3 holds it and HRNG is 1; each other bit is its check
function of it. -/
theorem derivehWritesAndChecksH : Obligations.DerivehWritesAndChecksH := by
  rintro ra s ⟨⟨hnw, -⟩, hregs⟩ hp hpow
  obtain ⟨h, hv, hsigned⟩ := exists_sModExp hp hpow
  obtain ⟨h0, hlt⟩ := hsigned.range hp
  have hrw : 0 < s.cfg.rw := by unfold Config.rw; omega
  have hreg : (s.setReg regH h).reg regH = h := by
    rw [State.setReg_reg_same, sext_twos_of_inRange s.cfg hrw (hregs.inRange_of_lt_regP h0 hlt)]
  exact ⟨_, h, exec_deriveh hp hv, hsigned, hreg, fun j hj => s.setReg_reg_ne h hj, State.succeeded_finished rfl,
    ⟨rfl, rfl, rfl, rfl, rfl, rfl, rfl⟩, checkRange_iff.2 ⟨h0, hlt⟩, checkNotOne_iff,
    checkOrder_iff.trans (and_iff_right hp), checkFilter1_iff, checkFilter2_iff,
    s.derivedBits_rrng_iff ra h, Bool.and_eq_true_iff, rfl⟩

end Sys2Proof.Machine
end

section
/-! SUPPORT. Inverses and signed powers mod P as elements of ZMod P, and the exponents of G that hit a signed power: one
residue class of the order of G, whose least member is the least hit (42_dlog.md rules R84 and R85). -/

namespace Sys2Proof.Machine

/-- An inverse is the value Inv computes, and HasInv holds (rule R13). -/
theorem IsInverse.inv_eq {a p x : Int} (h : IsInverse a p x) : hasInv a p = true ∧ inv a p = x := by
  have ⟨_, _, hmul⟩ := h
  have hinv := hasInv_of_inverse hmul
  exact ⟨hinv, inverse_unique (inv_spec h.two_le hinv) h⟩

/-- An inverse is reduced mod p (rules R11 and R13). -/
theorem IsInverse.emod_eq {a p x : Int} (h : IsInverse a p x) : x % p = x := by
  obtain ⟨hlo, hhi, -⟩ := h
  exact Int.emod_eq_of_lt (by omega) hhi

/-- When x is the inverse of a reduced mod p, the value a reduced mod p is the inverse of x (rule R13). -/
theorem IsInverse.symm_emod {a p x : Int} (h : IsInverse (a % p) p x) : IsInverse x p (a % p) := by
  have hp := h.two_le
  obtain ⟨-, -, hmul⟩ := h
  have h0 : 0 ≤ a % p := Int.emod_nonneg a (by omega)
  have hne : a % p ≠ 0 := fun e => by simp [e] at hmul
  exact ⟨by omega, Int.emod_lt_of_pos a (by omega), by rwa [mul_comm]⟩

/-- The inverse of a value depends on its residue only (rule R13). -/
theorem IsInverse.of_emod {a p x : Int} (h : IsInverse (a % p) p x) : IsInverse a p x := by
  obtain ⟨hlo, hhi, hmul⟩ := h
  exact ⟨hlo, hhi, by rwa [(Int.mod_modEq a p).mul_right x] at hmul⟩

/-- The inverse of a target that is a power of a negative exponent e is the power of -e (rules R85 and R89). -/
theorem IsSignedPower.exists_inverse {g e p t : Int} (h : IsSignedPower g e p (t % p)) (he : e < 0) :
    ∃ x, IsInverse t p x ∧ IsSignedPower g (-e) p x := by
  obtain ⟨-, hneg⟩ := h
  exact ⟨_, (hneg he).symm_emod.of_emod, fun _ => rfl, fun h0 => by omega⟩

/-- The residue of a negative number no further below 0 than the modulus (rule R11). -/
theorem emod_eq_add_of_neg {e d : Int} (hneg : e < 0) (hle : -e ≤ d) : e % d = d + e := by
  rw [← Int.add_emod_left, Int.emod_eq_of_lt (by omega) (by omega)]

/-- Reducing an integer mod p does not change its class in ZMod p. -/
theorem intCast_zmod_emod {p : Int} (hp : 0 ≤ p) (a : Int) : ((a % p : Int) : ZMod p.toNat) = a :=
  (intCast_zmod_eq_iff hp _ _).2 (Int.mod_modEq a p)

/-- A value and its inverse multiply to 1 in ZMod p. -/
theorem IsInverse.intCast_mul_eq_one {a p x : Int} (h : IsInverse a p x) :
    (a : ZMod p.toNat) * x = 1 := by
  have hp : 0 ≤ p := by have := h.two_le; omega
  obtain ⟨-, -, hmul⟩ := h
  rw [← Int.cast_mul, ← intCast_zmod_emod hp, hmul, Int.cast_one]

/-- A value with an inverse mod p is a unit of ZMod p (rule R13). -/
theorem exists_unit_of_invertible {g p : Int} (hp : 2 ≤ p) (hg : Invertible g p) :
    ∃ u : (ZMod p.toNat)ˣ, (u : ZMod p.toNat) = g := by
  obtain ⟨x, hx⟩ := (hasInv_iff_exists_isInverse hp).1 (hasInv_iff.2 hg)
  exact ⟨Units.mkOfMulEqOne _ _ hx.intCast_mul_eq_one, rfl⟩

/-- A signed power of G is the integer power of the unit G of ZMod p (rule R89). -/
theorem IsSignedPower.intCast_eq_zpow {g e p y : Int} (hp : 0 ≤ p) (h : IsSignedPower g e p y)
    {u : (ZMod p.toNat)ˣ} (hu : (u : ZMod p.toNat) = g) : (y : ZMod p.toNat) = (u ^ e : (ZMod p.toNat)ˣ) := by
  have hpow : ∀ n : Nat, (((g % p) ^ n % p : Int) : ZMod p.toNat) = (u ^ n : (ZMod p.toNat)ˣ) := fun n => by
    rw [intCast_zmod_emod hp, Int.cast_pow, intCast_zmod_emod hp, Units.val_pow_eq_pow_val, hu]
  obtain ⟨hnonneg, hneg⟩ := h
  rcases lt_or_ge e 0 with he | he
  · obtain ⟨n, rfl⟩ : ∃ n : Nat, e = -n := ⟨(-e).toNat, by omega⟩
    have hmul := (hneg he).intCast_mul_eq_one
    rw [neg_neg, Int.toNat_natCast, hpow] at hmul
    rw [zpow_neg, zpow_natCast]
    exact (Units.inv_eq_of_mul_eq_one_right hmul).symm
  · obtain ⟨n, rfl⟩ := Int.eq_ofNat_of_zero_le he
    rw [hnonneg he, Int.toNat_natCast, hpow, zpow_natCast]

/-- The exponents whose power of G is the signed power G^e are those congruent to e mod the order of G (rule R85). -/
theorem IsSignedPower.hit_iff_modEq {g e p y : Int} (hp : 2 ≤ p) (hg : Invertible g p) (h : IsSignedPower g e p y)
    (k : Nat) : g ^ k % p = y ↔ (k : Int) ≡ e [ZMOD orderOf ((g : Int) : ZMod p.toNat)] := by
  obtain ⟨u, hu⟩ := exists_unit_of_invertible hp hg
  obtain ⟨hlo, hhi⟩ := h.range hp
  have hy := h.intCast_eq_zpow (by omega) hu
  calc g ^ k % p = y ↔ ((g ^ k : Int) : ZMod p.toNat) = y := by
        rw [intCast_zmod_eq_iff (by omega), Int.emod_eq_of_lt hlo hhi]
    _ ↔ u ^ (k : Int) = u ^ e := by
        rw [hy, Int.cast_pow, ← hu, ← Units.val_pow_eq_pow_val, ← zpow_natCast, Units.val_inj]
    _ ↔ (k : Int) ≡ e [ZMOD orderOf ((g : Int) : ZMod p.toNat)] := by
        rw [zpow_eq_zpow_iff_modEq, ← hu, orderOf_units]

/-- No exponent below e mod d hits G^e, for the order d of G (rule R85). -/
theorem IsSignedPower.emod_le_of_hit {g e p y : Int} (hp : 2 ≤ p) (hg : Invertible g p) (h : IsSignedPower g e p y)
    {k : Nat} (hk : g ^ k % p = y) : e % orderOf ((g : Int) : ZMod p.toNat) ≤ k := by
  rw [← (h.hit_iff_modEq hp hg k).1 hk]
  exact_mod_cast Nat.mod_le k _

/-- The least hit of the signed power G^e is e mod d, for the order d of G, when the search reaches it (rules R84 and
R85). -/
theorem IsSignedPower.isLeastHit {g e p y m : Int} (hp : 2 ≤ p) (hg : Invertible g p) (h : IsSignedPower g e p y)
    {r : Nat} (hr : e % orderOf ((g : Int) : ZMod p.toNat) = r) (hle : (r : Int) ≤ m * (m + 1) - 1) :
    IsLeastHit p g m y r := by
  refine ⟨hle, (h.hit_iff_modEq hp hg r).2 (hr ▸ Int.mod_modEq e _), fun k hk hit => ?_⟩
  have := h.emod_le_of_hit hp hg hit
  omega

/-- The signed power G^e has no hit when e mod d is beyond the search, for the order d of G (rules R84 and R85). -/
theorem IsSignedPower.hasNoHit {g e p y m : Int} (hp : 2 ≤ p) (hg : Invertible g p) (h : IsSignedPower g e p y)
    (hlt : m * (m + 1) - 1 < e % orderOf ((g : Int) : ZMod p.toNat)) : HasNoHit p g m y := by
  intro k hk hit
  have := h.emod_le_of_hit hp hg hit
  omega

end Sys2Proof.Machine
end

section
/-! SUPPORT. The search size (42_dlog.md rule R79), what Search returns for G and a target (rule R84), and each outcome of
DLOG (rules R82 and R83) with the completion it ends in (60_exceptions.md rules R99 and R100). -/

namespace Sys2Proof.Machine

/-- The model computes the search size (rules R12 and R79). -/
theorem IsSearchSize.dlogM_eq {l b m : Int} (h : IsSearchSize l b m) (hl : 1 ≤ l) (hb : 1 ≤ b) : dlogM l b = m := by
  obtain ⟨c, h0, hsq, hleast, rfl⟩ := h
  obtain ⟨h0', hsq', hleast'⟩ := csqrt_spec (n := l * b * b) (by positivity)
  rw [dlogM, dlogBound, le_antisymm (hleast' c h0 hsq) (hleast _ h0' hsq')]

/-- The search size is at least 1 (rule R79). -/
theorem IsSearchSize.one_le {l b m : Int} (h : IsSearchSize l b m) : 1 ≤ m := by
  obtain ⟨c, h0, -, -, rfl⟩ := h
  omega

/-- The search reaches the bound: L*B*B <= E (rules R79 and R86). -/
theorem IsSearchSize.bound_le {l b m : Int} (h : IsSearchSize l b m) : l * b * b ≤ m * (m + 1) - 1 := by
  obtain ⟨c, h0, hsq, -, rfl⟩ := h
  linarith

/-- A search that the table can hold ends below 2^64 (rules R7 and R22). -/
theorem State.DlogSearches.range_lt {s : State} {m : Int} (h : s.DlogSearches m) (hok : s.cfg.Ok) :
    m * (m + 1) ≤ 2 ^ 64 := by
  obtain ⟨-, -, -, hsize, htable, -⟩ := h
  have hm := hsize.one_le
  have hle : m ≤ 2 ^ 32 - 1 := by omega
  calc m * (m + 1) ≤ (2 ^ 32 - 1) * (2 ^ 32 - 1 + 1) := by gcongr
    _ ≤ 2 ^ 64 := by norm_num

/-- The exponents of [0, m*(m+1) - 1] are the naturals below (m + 1)*m (rule R79). -/
theorem le_searchEnd_iff {m : Int} (hm : 1 ≤ m) (k : Nat) :
    (k : Int) ≤ m * (m + 1) - 1 ↔ k < (m.toNat + 1) * m.toNat := by
  obtain ⟨n, rfl⟩ := Int.eq_ofNat_of_zero_le (by omega : 0 ≤ m)
  rw [Int.toNat_natCast, Nat.mul_comm]
  zify
  omega

/-- Powers of G reduced first are powers of G mod p (rule R14). -/
theorem emod_pow_emod (g p : Int) (k : Nat) : (g % p) ^ k % p = g ^ k % p := (Int.mod_modEq g p).pow k

section Search
variable {p g m f y : Int} (hp : 2 ≤ p) (hm : 1 ≤ m) (hf : (g % p) ^ m.toNat * f ≡ 1 [ZMOD p])
include hp hm hf

/-- Search returns min Hits(y) (rule R84). -/
theorem search_of_isLeastHit {e : Nat} (h : IsLeastHit p g m y e) :
    search p f m.toNat (babyTable p g m.toNat) y = some (e : Int) := by
  obtain ⟨hle, hit, hleast⟩ := h
  rw [le_searchEnd_iff hm] at hle
  have hy : y % p = y := by rw [← hit, Int.emod_emod_of_dvd _ dvd_rfl]
  rcases search_spec hf hy (babyTable_spec hp m.toNat) with ⟨k, hk, -, hkit, hkleast⟩ | ⟨-, hno⟩
  · simp only [emod_pow_emod] at hkit hkleast
    have hke : ¬ k < e := fun hlt => hleast k hlt hkit
    have hek : ¬ e < k := fun hlt => hkleast e hlt hit
    rw [hk, show k = e by omega]
  · exact absurd ((emod_pow_emod g p e).trans hit) (hno e hle)

/-- Search returns none when Hits(y) is empty (rule R84). -/
theorem search_of_hasNoHit (hy : y % p = y) (h : HasNoHit p g m y) :
    search p f m.toNat (babyTable p g m.toNat) y = none := by
  rcases search_spec hf hy (babyTable_spec hp m.toNat) with ⟨k, -, hlt, hit, -⟩ | ⟨hnone, -⟩
  · exact absurd ((emod_pow_emod g p k).symm.trans hit) (h k ((le_searchEnd_iff hm k).2 hlt))
  · exact hnone
end Search

/-- The outcome of DLOG on the registers of a state (rule R82). -/
def State.dlogOutcome (s : State) (neg : Bool) (ra : Reg) : Except ErrorCode DlogHit :=
  dlogResult s.cfg.tableEntries (s.reg regP) (s.reg regG) (s.reg regL) (s.reg regB) (s.reg ra) neg

/-- DLOG ends as its outcome says (rules R82 and R98). -/
theorem exec_dlog (neg : Bool) (rd ra : Reg) (s : State) :
    exec (.dlog neg rd ra) s = conclude s ((s.dlogOutcome neg ra).map fun hit =>
      (s.writeDest rd hit.value).setStatus (s.status.withHit hit.negative hit.exceeds)) := rfl

/-- An outcome that is an error is the error completion (rule R100). -/
theorem exec_dlog_of_error {s : State} {neg : Bool} {ra : Reg} {e : ErrorCode} (h : s.dlogOutcome neg ra = .error e)
    (rd : Reg) : ∃ t, exec (.dlog neg rd ra) s = .next t ∧ s.FailedWith t e :=
  ⟨_, by rw [exec_dlog, h]; rfl, failedWith_setStatus s e⟩

/-- A hit that a register can hold is written, flagged, and nothing else changes (rules R30, R83 and R99). -/
theorem State.Ready.exec_dlog_of_ok {s : State} (hs : s.Ready) {neg : Bool} {ra : Reg} {hit : DlogHit}
    (h : s.dlogOutcome neg ra = .ok hit) (hv : InRange s.cfg hit.value) (rd : Reg) :
    ∃ t, exec (.dlog neg rd ra) s = .next t ∧ s.FoundOnly t rd hit.value hit.negative (hit.exceeds = true) := by
  obtain ⟨hreg, hothers, hvalid, -, hcfg, hctrl, hcmd, -, hsched, hdraws, hreplies⟩ := hs.wroteOnly_finished rd hv
  exact ⟨(s.writeDest rd hit.value).setStatus (s.status.withHit hit.negative hit.exceeds).finished,
    by rw [exec_dlog, h]; rfl, hreg, hothers, hvalid, ⟨hcfg, hctrl, hcmd, rfl, hsched, hdraws, hreplies⟩,
    rfl, rfl, rfl, rfl, rfl, rfl, rfl, Iff.rfl⟩

/-- E_PARAM comes first (rule R103). -/
theorem State.dlogOutcome_of_param {s : State} (h : s.reg regP < 2 ∨ s.reg regL < 1 ∨ s.reg regB < 1) (neg : Bool)
    (ra : Reg) : s.dlogOutcome neg ra = .error .param := if_pos h

section Checks
variable {s : State} {m : Int} (hp : 2 ≤ s.reg regP) (hl : 1 ≤ s.reg regL) (hb : 1 ≤ s.reg regB)
  (hm : IsSearchSize (s.reg regL) (s.reg regB) m) (neg : Bool) (ra : Reg)
include hp hl hb hm

/-- E_TABLE comes next (rule R103). -/
theorem State.dlogOutcome_of_table (h : s.cfg.tableEntries < m) : s.dlogOutcome neg ra = .error .table := by
  rw [State.dlogOutcome, dlogResult, if_neg (by omega), hm.dlogM_eq hl hb, if_pos h]

/-- E_NOINV of G comes third (rule R103). -/
theorem State.dlogOutcome_of_noInv (h : m ≤ s.cfg.tableEntries) (hg : ¬ Invertible (s.reg regG) (s.reg regP)) :
    s.dlogOutcome neg ra = .error .noInv := by
  rw [State.dlogOutcome, dlogResult, if_neg (by omega), hm.dlogM_eq hl hb, if_neg (by omega),
    if_neg fun hinv => hg (hasInv_iff.1 hinv)]
end Checks

/-- When the first checks pass, the stride exists, it undoes m steps of G, and the outcome is that of the branches (rules
R81 and R82). -/
theorem State.DlogSearches.exists_stride {s : State} {m : Int} (h : s.DlogSearches m) :
    ∃ f, (s.reg regG % s.reg regP) ^ m.toNat * f ≡ 1 [ZMOD s.reg regP] ∧
      ∀ neg ra, s.dlogOutcome neg ra = dlogBranches (s.reg regP) f (dlogBound (s.reg regL) (s.reg regB)) (s.reg ra) m.toNat
        (babyTable (s.reg regP) (s.reg regG) m.toNat) neg := by
  obtain ⟨hp, hl, hb, hsize, htable, hg⟩ := h
  obtain ⟨f, hf, -⟩ := exists_sModExp (e := -m) hp (.inr hg)
  refine ⟨f, stride_spec hp hsize.one_le hf, fun neg ra => ?_⟩
  rw [State.dlogOutcome, dlogResult, if_neg (by omega), hsize.dlogM_eq hl hb, if_neg (by omega),
    if_pos (hasInv_iff.2 hg), hf]

section Outcomes
variable {s : State} {m : Int} (h : s.DlogSearches m) {ra : Reg}
include h

/-- The positive branch (rule R84). -/
theorem State.DlogSearches.outcome_of_isLeastHit {e : Nat}
    (he : IsLeastHit (s.reg regP) (s.reg regG) m (s.reg ra % s.reg regP) e) (neg : Bool) :
    s.dlogOutcome neg ra = .ok ⟨e, false, decide (s.reg regL * s.reg regB * s.reg regB < e)⟩ := by
  obtain ⟨f, hf, hbranches⟩ := h.exists_stride
  obtain ⟨hp, -, -, hsize, -⟩ := h
  rw [hbranches, dlogBranches, search_of_isLeastHit hp hsize.one_le hf he]
  rfl

variable (hno : HasNoHit (s.reg regP) (s.reg regG) m (s.reg ra % s.reg regP))
include hno

/-- No positive hit, NEG = 0 (rule R82). -/
theorem State.DlogSearches.outcome_false_of_hasNoHit : s.dlogOutcome false ra = .error .notFound := by
  obtain ⟨f, hf, hbranches⟩ := h.exists_stride
  obtain ⟨hp, -, -, hsize, -⟩ := h
  rw [hbranches, dlogBranches, search_of_hasNoHit hp hsize.one_le hf (Int.emod_emod_of_dvd _ dvd_rfl) hno]
  rfl

/-- No positive hit, NEG = 1: the negative branch, on the inverse of the target (rule R82). -/
theorem State.DlogSearches.exists_stride_negative :
    ∃ f, (s.reg regG % s.reg regP) ^ m.toNat * f ≡ 1 [ZMOD s.reg regP] ∧
      s.dlogOutcome true ra = dlogNegative (s.reg regP) f (dlogBound (s.reg regL) (s.reg regB)) (s.reg ra) m.toNat
        (babyTable (s.reg regP) (s.reg regG) m.toNat) := by
  obtain ⟨f, hf, hbranches⟩ := h.exists_stride
  obtain ⟨hp, -, -, hsize, -⟩ := h
  refine ⟨f, hf, ?_⟩
  rw [hbranches, dlogBranches, search_of_hasNoHit hp hsize.one_le hf (Int.emod_emod_of_dvd _ dvd_rfl) hno]
  rfl

/-- No positive hit, NEG = 1, and a target without inverse (rule R82). -/
theorem State.DlogSearches.outcome_true_of_not_invertible (ht : ¬ Invertible (s.reg ra) (s.reg regP)) :
    s.dlogOutcome true ra = .error .noInv := by
  obtain ⟨f, -, hneg⟩ := h.exists_stride_negative hno
  rw [hneg, dlogNegative, if_neg fun hinv => ht (hasInv_iff.1 hinv)]

variable {x : Int} (hx : IsInverse (s.reg ra) (s.reg regP) x)
include hx

/-- The negative branch (rule R84). -/
theorem State.DlogSearches.outcome_true_of_isLeastHit {e : Nat} (he : IsLeastHit (s.reg regP) (s.reg regG) m x e) :
    s.dlogOutcome true ra = .ok ⟨-e, true, decide (s.reg regL * s.reg regB * s.reg regB < e)⟩ := by
  obtain ⟨f, hf, hneg⟩ := h.exists_stride_negative hno
  obtain ⟨hinv, rfl⟩ := hx.inv_eq
  obtain ⟨hp, -, -, hsize, -⟩ := h
  rw [hneg, dlogNegative, if_pos hinv, search_of_isLeastHit hp hsize.one_le hf he]
  rfl

/-- Neither branch hits (rule R82). -/
theorem State.DlogSearches.outcome_true_of_hasNoHit (hxno : HasNoHit (s.reg regP) (s.reg regG) m x) :
    s.dlogOutcome true ra = .error .notFound := by
  obtain ⟨f, hf, hneg⟩ := h.exists_stride_negative hno
  have hmod := hx.emod_eq
  obtain ⟨hinv, rfl⟩ := hx.inv_eq
  obtain ⟨hp, -, -, hsize, -⟩ := h
  rw [hneg, dlogNegative, if_pos hinv, search_of_hasNoHit hp hsize.one_le hf hmod hxno]
end Outcomes

/-- An operand register holds every exponent of the search, with either sign (rule R22). -/
theorem State.DlogSearches.inRange {s : State} {m v : Int} (h : s.DlogSearches m) (hok : s.cfg.Ok)
    (hlo : -(m * (m + 1) - 1) ≤ v) (hhi : v ≤ m * (m + 1) - 1) : InRange s.cfg v := by
  have hlt := h.range_lt hok
  have ⟨hnw, _⟩ := hok
  have hpow : (2 : Int) ^ 64 ≤ 2 ^ (s.cfg.rw - 1) := pow_le_pow_right₀ (by decide) (by unfold Config.rw; omega)
  exact ⟨by omega, by omega⟩

/-- With no hit of the target, a hit of its inverse is at least 1: exponent 0 hits 1, the inverse of 1 only (rule R84). -/
theorem IsLeastHit.one_le_of_hasNoHit {p g m t x : Int} {e : Nat} (hm : 1 ≤ m) (hno : HasNoHit p g m (t % p))
    (hx : IsInverse t p x) (he : IsLeastHit p g m x e) : 1 ≤ e := by
  have hp := hx.two_le
  obtain ⟨-, -, hmul⟩ := hx
  obtain ⟨-, hit, -⟩ := he
  by_contra hlt
  obtain rfl : e = 0 := by omega
  have hone : (1 : Int) % p = 1 := Int.emod_eq_of_lt (by omega) (by omega)
  rw [pow_zero, hone] at hit
  rw [← hit, mul_one] at hmul
  refine hno 0 ?_ (by rw [pow_zero, hone, hmul])
  have : 1 * (1 + 1) ≤ m * (m + 1) := by gcongr
  omega

end Sys2Proof.Machine
end

section
/-! Proofs of the statements on DLOG: its closed form (42_dlog.md rules R82 to R84), its failures (60_exceptions.md rule
R103), and when its result is the true exponent (42_dlog.md rule R85). -/

namespace Sys2Proof.Machine

/-- Settles O31: Search returns the least hit, which a register holds. -/
theorem dlogReturnsTheLeastPositiveHit : Obligations.DlogReturnsTheLeastPositiveHit := by
  intro neg rd ra s m e hs hsearch he
  have ⟨hok, _⟩ := hs
  have ⟨hle, _⟩ := he
  have hv := hsearch.inRange hok (v := e) (by omega) hle
  simpa using hs.exec_dlog_of_ok (hsearch.outcome_of_isLeastHit he neg) hv rd

/-- Settles O32: the search of the inverse returns its least hit, whose negative a register holds. -/
theorem dlogReturnsTheLeastNegativeHit : Obligations.DlogReturnsTheLeastNegativeHit := by
  intro rd ra s m x e hs hsearch hno hx he
  have ⟨hok, _⟩ := hs
  have ⟨_, _, _, hsize, _⟩ := hsearch
  have ⟨hle, _⟩ := he
  have hv := hsearch.inRange hok (v := -e) (by omega) (by omega)
  refine ⟨he.one_le_of_hasNoHit hsize.one_le hno hx, ?_⟩
  simpa using hs.exec_dlog_of_ok (hsearch.outcome_true_of_isLeastHit hno hx he) hv rd

/-- Settles O33: each check that fails gives its outcome, and an error outcome is the error completion. -/
theorem dlogFailsInTheOrderOfItsChecks : Obligations.DlogFailsInTheOrderOfItsChecks := by
  intro neg rd ra s m
  refine ⟨fun h => ?_, fun hp hl hb hm => ⟨fun h => ?_, fun h hg => ?_⟩,
    fun hsearch hno => ⟨?_, fun ht => ?_, fun x hx hxno => ?_⟩⟩
  · exact exec_dlog_of_error (s.dlogOutcome_of_param h neg ra) rd
  · exact exec_dlog_of_error (State.dlogOutcome_of_table hp hl hb hm neg ra h) rd
  · exact exec_dlog_of_error (State.dlogOutcome_of_noInv hp hl hb hm neg ra h hg) rd
  · exact exec_dlog_of_error (hsearch.outcome_false_of_hasNoHit hno) rd
  · exact exec_dlog_of_error (hsearch.outcome_true_of_not_invertible hno ht) rd
  · exact exec_dlog_of_error (hsearch.outcome_true_of_hasNoHit hno hx hxno) rd

section TrueExponent
variable {s : State} {m e b d : Int} (hs : s.Ready) (hsearch : s.DlogSearches m) {ra : Reg}
  (ht : IsSignedPower (s.reg regG) e (s.reg regP) (s.reg ra % s.reg regP))
  (hb : s.reg regL * s.reg regB * s.reg regB = b) (hd : orderOf ((s.reg regG : Int) : ZMod (s.reg regP).toNat) = d)
  (rd : Reg)
include hs hsearch ht hb hd

/-- A true exponent of [0, bound] below the order of G is the least hit (rule R85). -/
theorem exec_dlog_of_nonneg (h0 : 0 ≤ e) (hle : e ≤ b) (hlt : e < d) :
    ∃ t, exec (.dlog true rd ra) s = .next t ∧ s.FoundOnly t rd e (decide (e < 0)) False := by
  subst hb hd
  have ⟨hp, _, _, hsize, _, hg⟩ := hsearch
  have hbound := hsize.bound_le
  obtain ⟨n, rfl⟩ := Int.eq_ofNat_of_zero_le h0
  have hit := ht.isLeastHit (m := m) hp hg (Int.emod_eq_of_lt h0 hlt) (by omega)
  have hsign : decide ((n : Int) < 0) = false := decide_eq_false (by omega)
  simpa only [hsign, not_lt.2 hle] using dlogReturnsTheLeastPositiveHit true rd ra s m n hs hsearch hit

/-- A negative true exponent e of [-bound, 0) is minus the least hit of the inverse when the search does not reach d + e,
the least hit of the target, for the order d of G (rule R85). -/
theorem exec_dlog_of_neg (hneg : e < 0) (hge : -b ≤ e) (hend : m * (m + 1) - 1 < d + e) :
    ∃ t, exec (.dlog true rd ra) s = .next t ∧ s.FoundOnly t rd e (decide (e < 0)) False := by
  subst hb hd
  have ⟨hp, _, _, hsize, _, hg⟩ := hsearch
  have hbound := hsize.bound_le
  have hno := ht.hasNoHit hp hg (hend.trans_eq (emod_eq_add_of_neg hneg (by omega)).symm)
  obtain ⟨x, hx, hxpow⟩ := ht.exists_inverse hneg
  obtain ⟨n, rfl⟩ : ∃ n : Nat, e = -n := ⟨(-e).toNat, by omega⟩
  rw [neg_neg] at hxpow
  have hit := hxpow.isLeastHit (m := m) hp hg (Int.emod_eq_of_lt (by omega) (by omega)) (by omega)
  have hle : (n : Int) ≤ s.reg regL * s.reg regB * s.reg regB := by omega
  obtain ⟨-, hfound⟩ := dlogReturnsTheLeastNegativeHit rd ra s m x n hs hsearch hno hx hit
  simpa only [decide_eq_true hneg, not_lt.2 hle] using hfound

/-- A negative true exponent e of [-bound, 0) comes out as d + e, above the bound, when the search reaches it and the order d
of G is above 2*bound (rules R85 and R86). -/
theorem exec_dlog_of_wrap (hneg : e < 0) (hge : -b ≤ e) (hlt : 2 * b < d) (hend : d + e ≤ m * (m + 1) - 1) :
    ∃ t, exec (.dlog true rd ra) s = .next t ∧ s.FoundOnly t rd (d + e) false True := by
  have ⟨hp, _, _, _, _, hg⟩ := hsearch
  obtain ⟨r, hr⟩ := Int.eq_ofNat_of_zero_le (by omega : 0 ≤ d + e)
  have hmod := (emod_eq_add_of_neg hneg (by omega)).trans hr
  rw [← hd] at hmod
  have hit := ht.isLeastHit hp hg hmod (hr.symm.trans_le hend)
  have habove : b < r := by omega
  rw [hr]
  simpa only [hb, habove] using dlogReturnsTheLeastPositiveHit true rd ra s m r hs hsearch hit
end TrueExponent

/-- Settles O34: bound + E is below the order, so a negative e is not reached from the positive side. -/
theorem dlogReturnsTheTrueExponent : Obligations.DlogReturnsTheTrueExponent := by
  intro rd ra s m e hs hsearch horder ht hlo hhi
  have ⟨_, _, _, hsize, _⟩ := hsearch
  have hbound := hsize.bound_le
  rcases lt_or_ge e 0 with hneg | h0
  · exact exec_dlog_of_neg hs hsearch ht rfl rfl rd hneg hlo (by omega)
  · exact exec_dlog_of_nonneg hs hsearch ht rfl rfl rd h0 hhi (by omega)

/-- Settles O35: for a negative e the search either ends before d + e, or returns it with EXCEEDS. -/
theorem dlogUnderThePreconditionFlagsTheWrap : Obligations.DlogUnderThePreconditionFlagsTheWrap := by
  intro rd ra s m e hs hsearch horder ht hlo hhi
  rcases lt_or_ge e 0 with hneg | h0
  · rcases lt_or_ge (m * (m + 1) - 1) (orderOf ((s.reg regG : Int) : ZMod (s.reg regP).toNat) + e) with hend | hend
    · obtain ⟨t, hexec, hfound⟩ := exec_dlog_of_neg hs hsearch ht rfl rfl rd hneg hlo hend
      exact ⟨t, hexec, .inl hfound⟩
    · obtain ⟨t, hexec, hfound⟩ := exec_dlog_of_wrap hs hsearch ht rfl rfl rd hneg hlo horder hend
      exact ⟨t, hexec, .inr ⟨hneg, hfound⟩⟩
  · obtain ⟨t, hexec, hfound⟩ := exec_dlog_of_nonneg hs hsearch ht rfl rfl rd h0 hhi (by omega)
    exact ⟨t, hexec, .inl hfound⟩

/-- Settles O36: the table limit keeps bound + E below 2^65, far below the order, so O34 applies. -/
theorem dlogIsExactForFullSizeGroups : Obligations.DlogIsExactForFullSizeGroups := by
  intro rd ra s m e hs hsearch horder _ ht hlo hhi
  have ⟨hok, _⟩ := hs
  have ⟨_, _, _, hsize, _⟩ := hsearch
  have hbound := hsize.bound_le
  have hrange := hsearch.range_lt hok
  have horder' : 2 ^ 65 ≤ orderOf ((s.reg regG : Int) : ZMod (s.reg regP).toNat) :=
    (Nat.pow_le_pow_right (by decide) (by decide)).trans horder
  exact dlogReturnsTheTrueExponent rd ra s m e hs hsearch (by omega) ht hlo hhi

end Sys2Proof.Machine
end

section
/-! SUPPORT. The values of the commands of 43_modexp.md and of DERIVEH for P >= 2 as functions of SModExp and Inv
(rules R91 to R94, 41_validator.md rule R75), how a command that has its value or lacks it ends (60_exceptions.md rules
R99 and R100), and the law of exponents of SModExp (rule R89). -/

namespace Sys2Proof.Machine

section Values
variable {p : Int} (hp : 2 ≤ p)
include hp

/-- SModExp of a negative exponent has no value when the base has no inverse (rule R89). -/
theorem sModExp_eq_none {b e : Int} (he : e < 0) (hb : ¬ Invertible b p) : sModExp b e p = none := by
  rw [sModExp_neg hp he, if_neg (mt hasInv_iff.1 hb)]

/-- MODEXP has the value of SModExp, and E_NOINV where there is none (rule R91). -/
theorem modexpValue_eq (b e : Int) : modexpValue p b e = (sModExp b e p).elim (.error .noInv) .ok := by
  rw [modexpValue, if_neg (by omega)]
  cases sModExp b e p <;> rfl

/-- MEXPACC multiplies the accumulator by SModExp, and ends in E_NOINV where there is none (rule R94). -/
theorem mexpaccValue_eq (acc b e : Int) :
    mexpaccValue p acc b e = (sModExp b e p).elim (.error .noInv) fun v => .ok (acc * v % p) := by
  rw [mexpaccValue, if_neg (by omega)]
  cases sModExp b e p <;> rfl

/-- DERIVEH has the value of SModExp, and E_NOINV where there is none (rule R75). -/
theorem derivehValue_eq (g r : Int) : derivehValue p g r = (sModExp g r p).elim (.error .noInv) .ok := by
  rw [derivehValue, if_neg (by omega)]
  cases sModExp g r p <;> rfl

/-- MODMUL always has a value (rule R92). -/
theorem modmulValue_eq (a b : Int) : modmulValue p a b = .ok (a * b % p) := if_neg (by omega)

/-- MODINV has the value Inv of an invertible value (rule R93). -/
theorem modinvValue_of_hasInv {a : Int} (h : hasInv a p = true) : modinvValue p a = .ok (inv a p) := by
  rw [modinvValue, if_neg (by omega), if_pos h]

end Values

/-- A command that lacks its value is the error completion (rule R100). -/
theorem exists_conclude_error {α : Type} (s : State) (e : ErrorCode) (f : α → State) :
    ∃ t, conclude s ((Except.error e).map f) = .next t ∧ s.FailedWith t e :=
  ⟨_, rfl, failedWith_setStatus s e⟩

/-- A value of [0, P) is written to rd, and nothing else changes (rules R19, R30 and R99). -/
theorem State.Ready.exists_concludeValue_ok {s : State} (hs : s.Ready) (rd : Reg) {v : Int}
    (hv : 0 ≤ v ∧ v < s.reg regP) : ∃ t, s.concludeValue rd (.ok v) = .next t ∧ s.WroteOnly t rd v := by
  have ⟨_, hregs⟩ := hs
  obtain ⟨hlo, hhi⟩ := hv
  exact ⟨_, rfl, hs.wroteOnly_finished rd (hregs.inRange_of_lt_regP hlo hhi)⟩

/-- A remainder by P is written to rd, and nothing else changes (rules R11, R30 and R99). -/
theorem State.Ready.exists_concludeValue_emod {s : State} (hs : s.Ready) (rd : Reg) (hp : 2 ≤ s.reg regP) (a : Int) :
    ∃ t, s.concludeValue rd (.ok (a % s.reg regP)) = .next t ∧ s.WroteOnly t rd (a % s.reg regP) :=
  hs.exists_concludeValue_ok rd ⟨Int.emod_nonneg _ (by omega), Int.emod_lt_of_pos _ (by omega)⟩

/-- Signed powers of an invertible base multiply: in the units of ZMod p they are the integer powers of one unit (rule
R89). -/
theorem IsSignedPower.add {b e1 e2 p v1 v2 v : Int} (hp : 2 ≤ p) (hb : Invertible b p) (h1 : IsSignedPower b e1 p v1)
    (h2 : IsSignedPower b e2 p v2) (h : IsSignedPower b (e1 + e2) p v) : v = v1 * v2 % p := by
  have hp0 : 0 ≤ p := by omega
  obtain ⟨u, hu⟩ := exists_unit_of_invertible hp hb
  obtain ⟨hlo, hhi⟩ := h.range hp
  have hcast : (v : ZMod p.toNat) = ((v1 * v2 : Int) : ZMod p.toNat) := by
    rw [Int.cast_mul, h.intCast_eq_zpow hp0 hu, h1.intCast_eq_zpow hp0 hu, h2.intCast_eq_zpow hp0 hu, zpow_add,
      Units.val_mul]
  calc v = v % p := (Int.emod_eq_of_lt hlo hhi).symm
    _ = v1 * v2 % p := (intCast_zmod_eq_iff hp0 _ _).1 hcast

end Sys2Proof.Machine
end

section
/-! Proofs of the statements on the commands of 43_modexp.md: the value each writes (rules R91 to R94), the inverse that
does not exist (rules R89 and R101), and the law of exponents (rule R89). -/

namespace Sys2Proof.Machine

/-- Settles O15: SModExp has a value, the signed power, which lies in [0, P). -/
theorem modexpWritesTheSignedPower : Obligations.ModexpWritesTheSignedPower := by
  intro rd ra rb s hs hp hpow
  obtain ⟨v, hv, hsigned⟩ := exists_sModExp hp hpow
  obtain ⟨t, hend, hwrote⟩ := hs.exists_concludeValue_ok rd (hsigned.range hp)
  refine ⟨t, v, ?_, hsigned, hwrote⟩
  rw [exec, execModexp, modexpValue_eq hp, hv, Option.elim_some, hend]

/-- Settles O16: the product is reduced mod P, so a register holds it. -/
theorem modmulWritesTheReducedProduct : Obligations.ModmulWritesTheReducedProduct := by
  intro rd ra rb s hs hp
  rw [exec, execModmul, modmulValue_eq hp]
  exact hs.exists_concludeValue_emod rd hp _

/-- Settles O17: Inv is the inverse, which lies in [1, P). -/
theorem modinvWritesTheInverse : Obligations.ModinvWritesTheInverse := by
  intro rd ra s hs hp hinv
  have hx : IsInverse (s.reg ra) (s.reg regP) (inv (s.reg ra) (s.reg regP)) := inv_spec hp (hasInv_iff.2 hinv)
  have ⟨hlo, hhi, _⟩ := hx
  obtain ⟨t, hend, hwrote⟩ := hs.exists_concludeValue_ok rd ⟨by omega, hhi⟩
  refine ⟨t, _, ?_, hx, hwrote⟩
  rw [exec, execModinv, modinvValue_of_hasInv hp (hasInv_iff.2 hinv), hend]

/-- Settles O18: SModExp has a value, the signed power, and its product with the accumulator is reduced mod P. -/
theorem mexpaccMultipliesTheAccumulator : Obligations.MexpaccMultipliesTheAccumulator := by
  intro rd ra rb s hs hp hpow
  obtain ⟨v, hv, hsigned⟩ := exists_sModExp hp hpow
  obtain ⟨t, hend, hwrote⟩ := hs.exists_concludeValue_emod rd hp (s.reg rd * v)
  refine ⟨t, v, ?_, hsigned, hwrote⟩
  rw [exec, execMexpacc, mexpaccValue_eq hp, hv, Option.elim_some, hend]

/-- Settles O20: without the inverse SModExp and MODINV have no value, so each command has the value E_NOINV. -/
theorem missingInverseIsENoInv : Obligations.MissingInverseIsENoInv := by
  intro rd ra rb s hp
  refine ⟨fun hneg hinv => ⟨?_, ?_⟩, fun hinv => ?_, fun hneg hinv => ?_⟩
  · rw [exec, execModexp, modexpValue_eq hp, sModExp_eq_none hp hneg hinv]
    exact exists_conclude_error s .noInv _
  · rw [exec, execMexpacc, mexpaccValue_eq hp, sModExp_eq_none hp hneg hinv]
    exact exists_conclude_error s .noInv _
  · rw [exec, execModinv, modinvValue_of_not_hasInv hp (Bool.eq_false_iff.2 (mt hasInv_iff.1 hinv))]
    exact exists_conclude_error s .noInv _
  · rw [exec, execDeriveh, derivehValue_eq hp, sModExp_eq_none hp hneg hinv]
    exact exists_conclude_error s .noInv _

/-- Settles O24: the three signed powers exist, and multiply by `IsSignedPower.add`. -/
theorem signedPowersMultiply : Obligations.SignedPowersMultiply := by
  intro b e1 e2 p hp hb
  obtain ⟨v1, hv1, h1⟩ := exists_sModExp (e := e1) hp (.inr hb)
  obtain ⟨v2, hv2, h2⟩ := exists_sModExp (e := e2) hp (.inr hb)
  obtain ⟨v, hv, h⟩ := exists_sModExp (e := e1 + e2) hp (.inr hb)
  exact ⟨v1, v2, hv1, hv2, hv.trans (congrArg some (h1.add hp hb h2 h))⟩

end Sys2Proof.Machine
end

section
/-! SUPPORT. How a command ends, said once for every word in the latch (60_exceptions.md rules R98 to R100), and what an
access does when the block answers it and when it does not (20_memory.md rules R36 and R40). -/

namespace Sys2Proof.Machine

/-- While no command runs the engine has no step (rule R17). -/
theorem engineStep_of_idle {s : State} (h : s.status.busy = false) : engineStep s = .next s := by
  simp [engineStep, h]

/-- `t` is `s` after one of the two completions: success, or an error that wrote nothing (rules R98 to R100). -/
def State.Completed (s t : State) : Prop :=
  s.SameOutside t ∧ t.status.busy = false ∧ t.status.done = true ∧ t.status.irqp = true ∧
    ((t.status.err = false ∧ t.status.ecode = none) ∨ ∃ e, s.FailedWith t e)

/-- An error completion is one of the two completions (rule R100). -/
theorem State.completed_failed (s : State) (e : ErrorCode) : s.Completed (s.setStatus (s.status.failed e)) := by
  have hfail := failedWith_setStatus s e
  have ⟨_, _, houtside, _⟩ := hfail
  exact ⟨houtside, rfl, rfl, rfl, .inr ⟨e, hfail⟩⟩

/-- The writes of a successful command, and its completion, stay inside the part of the state a command owns. -/
theorem CommandEffect.sameOutside_finished {s u : State} (h : CommandEffect s u) :
    s.SameOutside (u.setStatus u.status.finished) := by
  rcases h with rfl | ⟨rd, v, rfl⟩ | ⟨rd, v, n, x, rfl⟩ | ⟨d, rfl⟩ | ⟨h, r, rfl⟩ <;> simp [State.SameOutside]

/-- A successful completion is one of the two completions (rule R99). -/
theorem CommandEffect.completed {s u : State} (h : CommandEffect s u) :
    s.Completed (u.setStatus u.status.finished) :=
  ⟨h.sameOutside_finished, rfl, rfl, rfl, .inl ⟨rfl, rfl⟩⟩

/-- Every command ends in one of the two completions (rule R98). -/
theorem exists_exec_completed (i : Instr) (s : State) : ∃ t, exec i s = .next t ∧ s.Completed t := by
  rcases exec_shape i s with ⟨e, h⟩ | ⟨u, hu, h⟩
  · exact ⟨_, h, s.completed_failed e⟩
  · exact ⟨_, h, hu.completed⟩

/-- Every word in the latch ends in one of the two completions (rules R60 and R98). -/
theorem exists_completion_completed (s : State) : ∃ t, completion s = .next t ∧ s.Completed t := by
  cases hd : decode s.cmd with
  | none => exact ⟨_, by rw [completion, hd, raiseError_eq], s.completed_failed .illegal⟩
  | some i =>
    rw [completion_of_decode hd]
    exact exists_exec_completed i s

/-- The engine's step leaves the block idle, whether or not a command runs (rules R104 and R113). -/
theorem exists_engineStep_idle (s : State) : ∃ t, engineStep s = .next t ∧ t.status.busy = false := by
  cases hb : s.status.busy with
  | false => exact ⟨s, engineStep_of_idle hb, hb⟩
  | true =>
    obtain ⟨t, h, -, hidle, -⟩ := exists_completion_completed s
    exact ⟨t, (engineStep_of_busy hb).trans h, hidle⟩

/-- The state after an access the block answers (rules R38 to R45). -/
def State.answer (s : State) (a : Access) : State :=
  match a.kind with
  | .read => s.hostRead a.host a.addr (a.addr - s.cfg.base)
  | .write v => s.hostWrite (a.addr - s.cfg.base) v

/-- The block answers an accepted access (rules R36 and R40). -/
theorem access_of_accepted {s : State} {a : Access} (h : a.Accepted s.cfg) : access s a = .next (s.answer a) := by
  obtain ⟨hlo, hhi, hbytes, hal⟩ := h
  have hwin : ¬ (a.addr < s.cfg.base ∨ s.cfg.base + windowBytes ≤ a.addr) := by unfold windowBytes; omega
  rw [access, if_neg hwin, if_neg (by omega), State.answer]
  cases a.kind <;> rfl

/-- Every other access faults (rules R36 and R40). -/
theorem exists_access_fault {s : State} {a : Access} (h : ¬ a.Accepted s.cfg) : ∃ f, access s a = .fault f := by
  by_cases hwin : a.addr < s.cfg.base ∨ s.cfg.base + windowBytes ≤ a.addr
  · exact ⟨_, if_pos hwin⟩
  · have hbad : a.bytes ≠ 4 ∨ (a.addr - s.cfg.base) % 4 ≠ 0 := by
      unfold windowBytes at hwin
      unfold Access.Accepted at h
      omega
    exact ⟨_, (if_neg hwin).trans (if_pos hbad)⟩

/-- An access goes on to a next state exactly when it is accepted. -/
theorem access_eq_next_iff {s t : State} {a : Access} :
    access s a = .next t ↔ a.Accepted s.cfg ∧ s.answer a = t := by
  by_cases h : a.Accepted s.cfg
  · rw [access_of_accepted h, Host.Outcome.next.injEq, and_iff_right h]
  · obtain ⟨f, hf⟩ := exists_access_fault h
    rw [hf]
    exact iff_of_false nofun fun ⟨hacc, _⟩ => h hacc

/-- An access faults exactly when it is not accepted. -/
theorem exists_access_fault_iff {s : State} {a : Access} :
    (∃ f, access s a = .fault f) ↔ ¬ a.Accepted s.cfg :=
  ⟨fun ⟨f, hf⟩ h => by simp [access_of_accepted h] at hf, exists_access_fault⟩

/-- A read by another master records the same address and value, and does the same else (rules R43 and R108). -/
theorem State.hostRead_host (s : State) (h1 h2 addr off : Nat) :
    (s.hostRead h1 addr off).SameBlock (s.hostRead h2 addr off) ∧
      (s.hostRead h2 addr off).schedule = (s.hostRead h1 addr off).schedule ∧
      (s.hostRead h2 addr off).draws = (s.hostRead h1 addr off).draws ∧
      (s.hostRead h2 addr off).replies.map (fun r => (r.addr, r.value)) =
        (s.hostRead h1 addr off).replies.map (fun r => (r.addr, r.value)) := by
  unfold State.hostRead
  split <;> exact ⟨⟨rfl, rfl, rfl, rfl, rfl, rfl⟩, rfl, rfl, rfl⟩

end Sys2Proof.Machine
end

section
/-! SUPPORT. The run over a schedule of accepted accesses: every step answers and takes one event, and the step after the
last event leaves the block idle (60_exceptions.md rule R104, 70_reset_and_hazards.md rules R123 and R125). -/

namespace Sys2Proof.Machine

/-- The writes of a successful command leave the schedule alone. -/
theorem CommandEffect.schedule_eq {s u : State} (h : CommandEffect s u) : u.schedule = s.schedule := by
  obtain ⟨-, -, -, -, hsched, -⟩ := h.sameOutside_finished
  exact hsched

/-- A host write leaves the schedule alone. -/
theorem hostWrite_schedule (s : State) (off : Nat) (v : Word) : (s.hostWrite off v).schedule = s.schedule := by
  rcases hostWrite_cases s off v with h | h | h | ⟨-, h⟩ | ⟨-, h⟩ | ⟨-, k, w, h⟩ <;> rw [h]
  · rfl
  · rfl
  · rfl
  · rfl
  · exact State.writeDest_schedule ..

/-- Every step takes one event off the schedule, when there is one (rule R47). -/
theorem step_schedule {s t : State} (h : step s = .next t) : t.schedule = s.schedule.tail := by
  rcases step_cases h with ⟨-, rfl⟩ | ⟨-, e, rfl⟩ | ⟨-, u, hu, rfl⟩ | ⟨host, addr, off, rfl⟩ | ⟨off, v, rfl⟩ | rfl
  · rfl
  · rfl
  · exact hu.schedule_eq
  · obtain ⟨v, h | h⟩ := hostRead_cases s.popped host addr off <;> rw [h] <;> rfl
  · exact hostWrite_schedule ..
  · rfl

/-- Every host access still to happen is one the block answers (rules R36 and R40). -/
def State.AccessesAccepted (s : State) : Prop := ∀ a, Event.access a ∈ s.schedule → a.Accepted s.cfg

/-- A step leaves accesses the block answers: the configuration stays and the schedule gets shorter. -/
theorem State.AccessesAccepted.step {s t : State} (hs : s.AccessesAccepted) (h : step s = .next t) :
    t.AccessesAccepted := by
  intro a ha
  rw [step_schedule h] at ha
  rw [step_cfg h]
  exact hs a (List.mem_of_mem_tail ha)

/-- A state whose accesses the block answers has a next state: no step faults (rule R104). -/
theorem State.AccessesAccepted.exists_step {s : State} (hs : s.AccessesAccepted) : ∃ t, Machine.step s = .next t := by
  cases hsch : s.schedule with
  | nil =>
    obtain ⟨t, h, -⟩ := exists_engineStep_idle s
    exact ⟨t, (step_of_nil hsch).trans h⟩
  | cons e rest =>
    rw [step_of_cons hsch]
    cases e with
    | access a => exact ⟨_, access_of_accepted (s := s.setSchedule rest) (hs a (by simp [hsch]))⟩
    | complete =>
      obtain ⟨t, h, -⟩ := exists_engineStep_idle (s.setSchedule rest)
      exact ⟨t, h⟩
    | reset => exact ⟨_, rfl⟩

/-- One step more than there are events ends with no event left and BUSY = 0 (rules R104 and R123). -/
theorem exists_run_idle (es : List Event) : ∀ {s : State}, s.schedule = es → s.AccessesAccepted →
    ∃ t, run (es.length + 1) s = .next t ∧ t.schedule = [] ∧ t.status.busy = false := by
  induction es with
  | nil =>
    intro s hsch _
    obtain ⟨t, h, hidle⟩ := exists_engineStep_idle s
    have hstep : step s = .next t := (step_of_nil hsch).trans h
    exact ⟨t, run_succ 0 hstep, by rw [step_schedule hstep, hsch, List.tail_nil], hidle⟩
  | cons e es ih =>
    intro s hsch hs
    obtain ⟨u, hstep⟩ := hs.exists_step
    obtain ⟨t, hrun, hend⟩ := ih (by rw [step_schedule hstep, hsch, List.tail_cons]) (hs.step hstep)
    exact ⟨t, (run_succ (es.length + 1) hstep).trans hrun, hend⟩

/-- A run that reaches a state at which it is over has a first such state (rule R125). -/
theorem exists_endOfRun_of_run (n : Nat) : ∀ {s t : State}, run n s = .next t → t.RunOver →
    ∃ u, endOfRun n s = some u ∧ u.RunOver := by
  induction n with
  | zero =>
    rintro s t ⟨⟩ ht
    exact ⟨s, if_pos ht, ht⟩
  | succ n ih =>
    intro s t hrun ht
    by_cases hover : s.RunOver
    · exact ⟨s, if_pos hover, hover⟩
    · cases hstep : step s with
      | next s' =>
        rw [run_succ n hstep] at hrun
        rw [endOfRun_succ n hstep, if_neg hover]
        exact ih hrun ht
      | fault f => rw [run, hstep] at hrun; cases hrun
      | refused r => rw [run, hstep] at hrun; cases hrun

/-- Where the run is over no host access is left (rule R125). -/
theorem State.RunOver.access_not_mem {s : State} (h : s.RunOver) (a : Access) : Event.access a ∉ s.schedule := by
  obtain ⟨hnone, -⟩ := h
  exact fun ha => List.any_eq_false.1 hnone _ ha rfl

end Sys2Proof.Machine
end

section
/-! SUPPORT. The values of the reducing commands for P < 2: E_PARAM, the first check of each rule (60_exceptions.md rule
R103, 43_modexp.md rules R91 to R94, 41_validator.md rule R75; `State.dlogOutcome_of_param` says it of DLOG). -/

namespace Sys2Proof.Machine

section Param
variable {p : Int} (hp : p < 2)
include hp

/-- MODEXP checks P first (rule R91). -/
theorem modexpValue_of_lt (b e : Int) : modexpValue p b e = .error .param := if_pos hp

/-- MODMUL checks P (rule R92). -/
theorem modmulValue_of_lt (a b : Int) : modmulValue p a b = .error .param := if_pos hp

/-- MODINV checks P first (rule R93). -/
theorem modinvValue_of_lt (a : Int) : modinvValue p a = .error .param := if_pos hp

/-- MEXPACC checks P first (rule R94). -/
theorem mexpaccValue_of_lt (acc b e : Int) : mexpaccValue p acc b e = .error .param := if_pos hp

/-- DERIVEH checks P first (rule R75). -/
theorem derivehValue_of_lt (g r : Int) : derivehValue p g r = .error .param := if_pos hp
end Param

end Sys2Proof.Machine
end

section
/-! Proofs of the statements on completions, interrupts and the end of a run (60_exceptions.md): idle (rule R113), the two
completions (rules R98 to R100), no hang (rule R104), E_PARAM first (rule R103), no privilege (rule R108) and irq (rule
R105). -/

namespace Sys2Proof.Machine

/-- Settles O9: idle, the engine has no step, so a step at most takes the completion event off the schedule. -/
theorem idleEngineKeepsEverything : Obligations.IdleEngineKeepsEverything := by
  intro s hb
  refine ⟨fun hs => ?_, fun rest hs => ?_⟩
  · exact (step_of_nil hs).trans (engineStep_of_idle hb)
  · exact (step_of_cons hs).trans (engineStep_of_idle (s := s.setSchedule rest) hb)

/-- Settles O10: the step is the completion of the latch, which is `exists_completion_completed`. -/
theorem everyIssuedWordCompletes : Obligations.EveryIssuedWordCompletes := by
  intro s rest hb hs
  rw [step_of_cons hs, runEvent, engineStep_of_busy (s := s.setSchedule rest) hb]
  exact exists_completion_completed (s.setSchedule rest)

/-- Settles O11: the run ends by `exists_run_idle`, and where it ends it is over, so it has a first such state. -/
theorem everyFiniteRunEndsIdle : Obligations.EveryFiniteRunEndsIdle := by
  intro s hs
  obtain ⟨t, hrun, hsch, hidle⟩ := exists_run_idle s.schedule rfl hs
  have hover : t.RunOver := ⟨by rw [hsch, List.any_nil], hidle⟩
  obtain ⟨u, hend, hu⟩ := exists_endOfRun_of_run _ hrun hover
  have ⟨_, huidle⟩ := hu
  exact ⟨⟨t, hrun, hsch, hidle⟩, u, hend, hu.access_not_mem, huidle⟩

/-- Settles O19: P < 2 is the first check of each command, and an error value is the error completion. -/
theorem modulusBelowTwoIsEParam : Obligations.ModulusBelowTwoIsEParam := by
  intro rd ra rb neg s hp
  simp only [List.forall_mem_cons, List.not_mem_nil, IsEmpty.forall_iff, implies_true, and_true]
  refine ⟨?_, ?_, ?_, ?_, ?_, ?_⟩
  · rw [exec, execModexp, modexpValue_of_lt hp]
    exact exists_conclude_error s .param _
  · rw [exec, execModmul, modmulValue_of_lt hp]
    exact exists_conclude_error s .param _
  · rw [exec, execModinv, modinvValue_of_lt hp]
    exact exists_conclude_error s .param _
  · rw [exec, execMexpacc, mexpaccValue_of_lt hp]
    exact exists_conclude_error s .param _
  · rw [exec, execDeriveh, derivehValue_of_lt hp]
    exact exists_conclude_error s .param _
  · exact exec_dlog_of_error (s.dlogOutcome_of_param (.inl hp) neg ra) rd

/-- Settles O49: whether an access is accepted does not look at the master, a write does not either, and a read only
records it. -/
theorem everyMasterHasTheSameEffect : Obligations.EveryMasterHasTheSameEffect := by
  intro s a other
  have hfault : (∃ f, access s { a with host := other } = .fault f) ↔ ¬ a.Accepted s.cfg := exists_access_fault_iff
  refine ⟨fun t h => ?_, exists_access_fault_iff.trans hfault.symm⟩
  obtain ⟨hacc, rfl⟩ := access_eq_next_iff.1 h
  refine ⟨_, access_of_accepted (a := { a with host := other }) hacc, ?_⟩
  unfold State.answer
  cases a.kind with
  | read => exact s.hostRead_host ..
  | write v => exact ⟨⟨rfl, rfl, rfl, rfl, rfl, rfl⟩, rfl, rfl, rfl⟩

/-- Settles O51: a completion sets IRQP and keeps CTRL; the two control writes act on the bit irq is made of; issue keeps
both. -/
theorem interruptFollowsCompletionAndEnable : Obligations.InterruptFollowsCompletionAndEnable := by
  refine ⟨fun i s => ?_, fun s host v rest hv => ?_, fun s host v rest hv => ?_, fun s host v rest hb => ?_⟩
  · obtain ⟨t, hexec, ⟨-, hctrl, -⟩, -, -, hirqp, -⟩ := exists_exec_completed i s
    exact ⟨t, hexec, hirqp, by rw [State.irq, hctrl, hirqp, Bool.and_true]⟩
  · refine ⟨(s.setSchedule rest).setStatus (s.status.written v), step_writeEvent s host v rest (by decide) rfl, ?_, rfl⟩
    simp [State.irq, hv]
  · refine ⟨(s.setSchedule rest).setCtrl (Ctrl.written v), step_writeEvent s host v rest (by decide) rfl, ?_⟩
    simp [State.irq, Ctrl.written, hv]
  · exact ⟨_, step_cmdWrite_of_idle hb host v rest, rfl⟩

end Sys2Proof.Machine
end

section
/-! SUPPORT. What each event does to OVR (70_reset_and_hazards.md rule R117): the engine and a host read keep it, a write of
STATUS can clear it, a dropped write sets it (20_memory.md rule R45). -/

namespace Sys2Proof.Machine

/-- A completion leaves OVR alone, and so does an idle engine (rules R98 and R113). -/
theorem engineStep_ovr {s t : State} (h : engineStep s = .next t) : t.status.ovr = s.status.ovr := by
  cases hb : s.status.busy with
  | false =>
    rw [engineStep_of_idle hb] at h
    cases h
    rfl
  | true =>
    obtain ⟨u, hu, ⟨-, -, -, hovr, -⟩, -⟩ := exists_completion_completed s
    rw [engineStep_of_busy hb, hu] at h
    cases h
    exact hovr

/-- STATUS stands at one offset of the window (rule R37). -/
theorem placeAt_eq_status_iff {nw off : Nat} : placeAt nw off = .status ↔ off = 0x0010 := by
  refine ⟨fun h => ?_, fun h => h ▸ rfl⟩
  by_contra hoff
  simp only [placeAt, if_neg hoff] at h
  split_ifs at h

/-- A host write to STATUS (rule R27). -/
theorem hostWrite_status (s : State) (v : Word) : s.hostWrite 0x0010 v = s.setStatus (s.status.written v) := rfl

/-- A host write to another place than STATUS leaves OVR = 1 (rules R43 and R117). -/
theorem hostWrite_keeps_ovr {s : State} (ho : s.status.ovr = true) {off : Nat} (hoff : off ≠ 0x0010) (v : Word) :
    (s.hostWrite off v).status.ovr = true := by
  unfold State.hostWrite
  cases hp : placeAt s.cfg.nw off with
  | id => exact ho
  | cfg0 => exact ho
  | cfg1 => exact ho
  | ctrl => exact ho
  | status => exact absurd (placeAt_eq_status_iff.1 hp) hoff
  | cmd => cases s.status.busy <;> simp [State.ignoredWrite, ho]
  | vstatus => exact ho
  | operand k w => cases s.status.busy <;> simp [State.ignoredWrite, State.writeOperandWord, ho]
  | reserved => exact ho

/-- A host write clears OVR exactly when it writes 1 to STATUS bit 6 (rules R27 and R117). -/
theorem hostWrite_clears_ovr_iff {s : State} (ho : s.status.ovr = true) (off : Nat) (v : Word) :
    (s.hostWrite off v).status.ovr = false ↔ off = 0x0010 ∧ v.getLsbD 6 = true := by
  by_cases hoff : off = 0x0010
  · subst hoff
    simp [hostWrite_status, ho]
  · simp [hostWrite_keeps_ovr ho hoff v, hoff]

/-- A host write that sets OVR was dropped because a command runs (rules R45 and R117). -/
theorem hostWrite_sets_ovr {s : State} (ho : s.status.ovr = false) {off : Nat} {v : Word}
    (h : (s.hostWrite off v).status.ovr = true) :
    s.status.busy = true ∧ s.hostWrite off v = s.setStatus s.status.overrun := by
  rcases hostWrite_cases s off v with e | e | e | e | ⟨-, e⟩ | ⟨-, k, w, e⟩
  case inr.inr.inr.inl => exact e
  all_goals
    rw [e] at h
    simp [State.writeOperandWord, ho] at h

/-- A host access clears OVR exactly when it is a write of 1 to STATUS bit 6 (rules R27, R43 and R117). -/
theorem access_clears_ovr_iff {s t : State} {a : Access} (h : access s a = .next t) (ho : s.status.ovr = true) :
    t.status.ovr = false ↔ ∃ host v, Event.access a = writeEvent s.cfg host 0x0010 v ∧ v.getLsbD 6 = true := by
  obtain ⟨⟨hlo, -, hbytes, -⟩, rfl⟩ := access_eq_next_iff.1 h
  obtain ⟨host, addr, bytes, kind⟩ := a
  have haddr : addr - s.cfg.base = 0x0010 ↔ addr = s.cfg.base + 0x0010 := by simp only at hlo; omega
  cases kind with
  | read =>
    obtain ⟨-, -, -, hstatus, -⟩ := s.hostRead_sameBlock host addr (addr - s.cfg.base)
    simp [State.answer, writeEvent, hstatus, ho]
  | write v =>
    simp only at hbytes
    simp [State.answer, writeEvent, hostWrite_clears_ovr_iff ho, haddr, hbytes]

/-- A host access that sets OVR is a write that was dropped because a command runs (rules R43, R45 and R117). -/
theorem access_sets_ovr {s t : State} {a : Access} (h : access s a = .next t) (ho : s.status.ovr = false)
    (ht : t.status.ovr = true) :
    s.status.busy = true ∧ t = s.setStatus s.status.overrun ∧ ∃ v, a.kind = .write v := by
  obtain ⟨-, rfl⟩ := access_eq_next_iff.1 h
  unfold State.answer at ht ⊢
  cases hk : a.kind with
  | read =>
    obtain ⟨-, -, -, hstatus, -⟩ := s.hostRead_sameBlock a.host a.addr (a.addr - s.cfg.base)
    simp [hk, hstatus, ho] at ht
  | write v =>
    rw [hk] at ht
    obtain ⟨hb, heq⟩ := hostWrite_sets_ovr ho ht
    exact ⟨hb, heq, v, rfl⟩

/-- An event clears OVR exactly when it is reset or a write of 1 to STATUS bit 6 (rules R114 and R117). -/
theorem runEvent_clears_ovr_iff {s t : State} {e : Event} (h : runEvent s e = .next t) (ho : s.status.ovr = true) :
    t.status.ovr = false ↔ e = .reset ∨ ∃ host v, e = writeEvent s.cfg host 0x0010 v ∧ v.getLsbD 6 = true := by
  cases e with
  | access a => simp [access_clears_ovr_iff h ho]
  | complete => simp [engineStep_ovr h, ho, writeEvent]
  | reset =>
    cases h
    exact iff_of_true rfl (.inl rfl)

/-- An event that sets OVR is a host write that was dropped because a command runs (rules R45 and R117). -/
theorem runEvent_sets_ovr {s t : State} {e : Event} (h : runEvent s e = .next t) (ho : s.status.ovr = false)
    (ht : t.status.ovr = true) :
    s.status.busy = true ∧ t = s.setStatus s.status.overrun ∧
      ∃ (a : Access) (v : Word), e = .access a ∧ a.kind = .write v := by
  cases e with
  | access a =>
    obtain ⟨hb, heq, v, hv⟩ := access_sets_ovr h ho ht
    exact ⟨hb, heq, a, v, rfl, hv⟩
  | complete => simp [engineStep_ovr h, ho] at ht
  | reset =>
    cases h
    cases ht

end Sys2Proof.Machine
end

section
/-! Proofs of the statements on reset (70_reset_and_hazards.md rule R114) and on the overrun bit (rule R117). -/

namespace Sys2Proof.Machine

/-- Settles O54, by the event of the step: the engine's step keeps OVR (`engineStep_ovr`), a scheduled event clears or sets
it as `runEvent_clears_ovr_iff` and `runEvent_sets_ovr` say. -/
theorem overrunIsStickyAndMeansADroppedWrite : Obligations.OverrunIsStickyAndMeansADroppedWrite := by
  intro s t h
  cases hsch : s.schedule with
  | nil =>
    rw [step_of_nil hsch] at h
    have hovr := engineStep_ovr h
    exact ⟨fun ho => by simp [hovr, ho], fun ho ht => by simp [hovr, ho] at ht⟩
  | cons e rest =>
    rw [step_of_cons hsch] at h
    simp only [List.head?_cons, Option.some.injEq]
    refine ⟨runEvent_clears_ovr_iff (s := s.setSchedule rest) h, fun ho ht => ?_⟩
    obtain ⟨hb, heq, hwrite⟩ := runEvent_sets_ovr (s := s.setSchedule rest) h ho ht
    exact ⟨hb, heq, hwrite⟩

/-- Settles O2: the step is `State.resetBlock`, which holds the reset values of rule R35
(`resetStateHoldsTheResetValues`). -/
theorem resetEventRestoresTheResetState : Obligations.ResetEventRestoresTheResetState := by
  intro s rest hs
  obtain ⟨hreset, -⟩ := resetStateHoldsTheResetValues
  obtain ⟨hreg, -, hstatus, hbusy, -, hcmd, hvstatus, hirq, -⟩ := hreset s.cfg
  exact ⟨(s.setSchedule rest).resetBlock, step_of_cons hs, rfl, hreg, rfl, hstatus, hbusy, hcmd, hvstatus, hirq, rfl, rfl⟩

end Sys2Proof.Machine
end
